-- ==== Sys2Proof/Word.lean ====
section
/-! DEFINITION. The word types of the VLQ Codec core: a wire byte and a 7-bit payload (00_scope.md R8, R10, R11). -/

namespace Sys2Proof

/-- A byte: 8 bits, numbered from 0 at the least-significant end (00_scope.md R8, R10). -/
abbrev Byte := BitVec 8

/-- A payload: bits 6..0 of a byte (00_scope.md R8, R10). -/
abbrev Payload := BitVec 7

end Sys2Proof
end

