-- ==== Sys2Proof/Config.lean ====
section
/-! DEFINITION. What a build of the block fixes: the value width W and the encoder's bound NMAX
(00_scope.md R6, R7). The spec leaves no value undefined after a step, so there is no free value here. -/

namespace Sys2Proof

/-- `W`, the width of the integer value path: a natural number W ≥ 1 or infinity (00_scope.md R6).
W ≥ 1 is `Width.wf`. It is an open parameter; a State carries it and no step changes it
(DESIGN CHOICE, log 2). -/
inductive Width where
  | finite (w : Nat)
  | inf
deriving DecidableEq, Repr

/-- A legal width: W ≥ 1, or infinity (00_scope.md R6). -/
def Width.wf : Width → Bool
  | .finite w => decide (1 ≤ w)
  | .inf => true

/-- `v < 2^W`; always true for W = ∞ (00_scope.md R6, 40_decoder.md R111). -/
def Width.fits : Width → Nat → Bool
  | .finite w, v => decide (v < 2 ^ w)
  | .inf, _ => true

/-- `NMAX = max(1, ceil(W / 7))`, the greatest number of bytes one ENC emits; no bound for W = ∞
(00_scope.md R7). -/
def Width.nmax : Width → Option Nat
  | .finite w => some (max 1 ((w + 6) / 7))
  | .inf => none

/-- A list of bytes is within the capacity NMAX (00_scope.md R7, 10_state.md R25). -/
def Width.holds (w : Width) (n : Nat) : Bool :=
  match w.nmax with
  | some m => decide (n ≤ m)
  | none => true

/-- The offset of every byte after the first: 6 (00_scope.md R8, 40_decoder.md R110). -/
def fullOffset : Nat := 6

/-- The width of a group and the shift of a full group: 7 (00_scope.md R8). -/
def groupBits : Nat := 7

end Sys2Proof
end

