-- ==== Sys2Proof/Syntax.lean ====
section
/-! DEFINITION. The instructions: one constructor per row of spec/opcode_table.json (30_encoding.md R76, R77,
R79), and the three kinds of word that stand at the block's ports before they are decoded. -/

namespace Sys2Proof

/-- One command on the command port: the word OP[7:0], the sign bit VSIGN and the magnitude VMAG
(30_encoding.md R77, R78). VMAG below 2^W is a check (`Command.wf`), not a type. -/
structure Command where
  word : Byte
  vsign : Bool
  vmag : Nat
deriving DecidableEq, Repr

/-- The byte source's answer to a pull: a byte, or END (00_scope.md R12, 20_memory.md R51). -/
inductive Answer where
  | byte (b : Byte)
  | fin
deriving DecidableEq, Repr

/-- What the block decodes: a command (format CMD8) or a source answer (format WIRE8, or END)
(30_encoding.md R81). -/
inductive PortWord where
  | cmd (c : Command)
  | answer (a : Answer)
deriving DecidableEq, Repr

/-- The opcode table. The byte classes carry their free payload bits `p` (and DEC.F.ZERO its ignored
continuation bit `c`); what a row fixes is in its name. -/
inductive Instr where
  /-- ENC, command word 0x01 with operand (VSIGN, VMAG): 45_encoder.md R140, R148. -/
  | enc (vsign : Bool) (vmag : Nat)
  /-- DEC, command word 0x02, operand ignored: 40_decoder.md R106, R112. -/
  | dec
  /-- A reserved command word, operand ignored: 30_encoding.md R79. -/
  | reserved (word : Byte)
  /-- DEC.F.ZERO, `c0000000`: 40_decoder.md R108. -/
  | decFZero (c : Bool)
  /-- DEC.F.K6.LAST, `01pppppp`: 40_decoder.md R109, as are the thirteen that follow. -/
  | decFK6Last (p : BitVec 6)
  /-- DEC.F.K6.MORE, `11pppppp`. -/
  | decFK6More (p : BitVec 6)
  /-- DEC.F.K5.LAST, `001ppppp`. -/
  | decFK5Last (p : BitVec 5)
  /-- DEC.F.K5.MORE, `101ppppp`. -/
  | decFK5More (p : BitVec 5)
  /-- DEC.F.K4.LAST, `0001pppp`. -/
  | decFK4Last (p : BitVec 4)
  /-- DEC.F.K4.MORE, `1001pppp`. -/
  | decFK4More (p : BitVec 4)
  /-- DEC.F.K3.LAST, `00001ppp`. -/
  | decFK3Last (p : BitVec 3)
  /-- DEC.F.K3.MORE, `10001ppp`. -/
  | decFK3More (p : BitVec 3)
  /-- DEC.F.K2.LAST, `000001pp`. -/
  | decFK2Last (p : BitVec 2)
  /-- DEC.F.K2.MORE, `100001pp`. -/
  | decFK2More (p : BitVec 2)
  /-- DEC.F.K1.LAST, `0000001p`. -/
  | decFK1Last (p : BitVec 1)
  /-- DEC.F.K1.MORE, `1000001p`. -/
  | decFK1More (p : BitVec 1)
  /-- DEC.F.K0.LAST, `00000001`. -/
  | decFK0Last
  /-- DEC.F.K0.MORE, `10000001`. -/
  | decFK0More
  /-- DEC.N.LAST, `0ppppppp`: 40_decoder.md R110. -/
  | decNLast (p : Payload)
  /-- DEC.N.MORE, `1ppppppp`: 40_decoder.md R110. -/
  | decNMore (p : Payload)
  /-- DEC.END, the source's end signal: 40_decoder.md R107. -/
  | decEnd
deriving DecidableEq, Repr

end Sys2Proof
end

