-- ==== Sys2Proof/WellFormed.lean ====
section
/-! DEFINITION. Which instruction terms stand for something a port can carry, for a given width W. -/

namespace Sys2Proof

/-- A command the port can carry: a magnitude of 2^W or more "cannot be represented" (30_encoding.md R78).
DEC and the reserved words ignore the operand (R78, R79), so only ENC's is checked. -/
def Command.wf (w : Width) (c : Command) : Bool :=
  if c.word = 0x01#8 then w.fits c.vmag else true

/-- A well-formed instruction: ENC's magnitude is below 2^W (30_encoding.md R78), and a reserved word is
neither 0x01 nor 0x02 (R79). The byte classes carry exactly their free bits, so every term of theirs is
well formed (R76: every byte value is legal). -/
def Instr.wf (w : Width) : Instr → Bool
  | .enc _ vmag => w.fits vmag
  | .dec => true
  | .reserved word => decide (word ≠ 0x01#8) && decide (word ≠ 0x02#8)
  | .decFZero _ => true
  | .decFK6Last _ => true
  | .decFK6More _ => true
  | .decFK5Last _ => true
  | .decFK5More _ => true
  | .decFK4Last _ => true
  | .decFK4More _ => true
  | .decFK3Last _ => true
  | .decFK3More _ => true
  | .decFK2Last _ => true
  | .decFK2More _ => true
  | .decFK1Last _ => true
  | .decFK1More _ => true
  | .decFK0Last => true
  | .decFK0More => true
  | .decNLast _ => true
  | .decNMore _ => true
  | .decEnd => true

/-- The value of FIRST under which a byte class is the class of its byte (the table's "phase" column,
30_encoding.md R76); `none` for the rows that do not depend on it. -/
def Instr.firstNeeded : Instr → Option Bool
  | .enc _ _ => none
  | .dec => none
  | .reserved _ => none
  | .decFZero _ => some true
  | .decFK6Last _ => some true
  | .decFK6More _ => some true
  | .decFK5Last _ => some true
  | .decFK5More _ => some true
  | .decFK4Last _ => some true
  | .decFK4More _ => some true
  | .decFK3Last _ => some true
  | .decFK3More _ => some true
  | .decFK2Last _ => some true
  | .decFK2More _ => some true
  | .decFK1Last _ => some true
  | .decFK1More _ => some true
  | .decFK0Last => some true
  | .decFK0More => some true
  | .decNLast _ => some false
  | .decNMore _ => some false
  | .decEnd => none

/-- An instruction stands at the decoder under this value of FIRST. -/
def Instr.underFirst (first : Bool) (i : Instr) : Bool :=
  match i.firstNeeded with
  | some f => f == first
  | none => true

end Sys2Proof
end

