-- ==== Sys2Proof/Decode.lean ====
section
/-! DEFINITION. The decoder of command words and wire bytes (30_encoding.md R76, R77, R79, R81) and after it
the encoder of instructions, written from the table's bit patterns. -/

namespace Sys2Proof

/-- Bits 6..0 of a wire byte (30_encoding.md R70). -/
def wirePayload (b : Byte) : Payload := b.extractLsb' 0 7

/-- Bit 7 of a wire byte: 1 = more bytes follow, 0 = last byte (30_encoding.md R70). -/
def wireMore (b : Byte) : Bool := b.getLsbD 7

/-- A row of the byte-class table (30_encoding.md R76): FIRST, mask, match, and the instruction the byte is. -/
structure ClassRow where
  first : Bool
  mask : Byte
  pat : Byte
  make : Byte → Instr

/-- The byte has the row's fixed bits. -/
def ClassRow.hits (r : ClassRow) (b : Byte) : Bool := b &&& r.mask == r.pat

/-- The FIRST = 1 rows with offsets 6 to 3, in the table's order (30_encoding.md R76). -/
def firstRowsHigh : List ClassRow :=
  [ ⟨true, 0x7F#8, 0x00#8, fun b => .decFZero (wireMore b)⟩,
    ⟨true, 0xC0#8, 0x40#8, fun b => .decFK6Last (b.extractLsb' 0 6)⟩,
    ⟨true, 0xC0#8, 0xC0#8, fun b => .decFK6More (b.extractLsb' 0 6)⟩,
    ⟨true, 0xE0#8, 0x20#8, fun b => .decFK5Last (b.extractLsb' 0 5)⟩,
    ⟨true, 0xE0#8, 0xA0#8, fun b => .decFK5More (b.extractLsb' 0 5)⟩,
    ⟨true, 0xF0#8, 0x10#8, fun b => .decFK4Last (b.extractLsb' 0 4)⟩,
    ⟨true, 0xF0#8, 0x90#8, fun b => .decFK4More (b.extractLsb' 0 4)⟩,
    ⟨true, 0xF8#8, 0x08#8, fun b => .decFK3Last (b.extractLsb' 0 3)⟩,
    ⟨true, 0xF8#8, 0x88#8, fun b => .decFK3More (b.extractLsb' 0 3)⟩ ]

/-- The FIRST = 1 rows with offsets 2 to 0 (30_encoding.md R76). -/
def firstRowsLow : List ClassRow :=
  [ ⟨true, 0xFC#8, 0x04#8, fun b => .decFK2Last (b.extractLsb' 0 2)⟩,
    ⟨true, 0xFC#8, 0x84#8, fun b => .decFK2More (b.extractLsb' 0 2)⟩,
    ⟨true, 0xFE#8, 0x02#8, fun b => .decFK1Last (b.extractLsb' 0 1)⟩,
    ⟨true, 0xFE#8, 0x82#8, fun b => .decFK1More (b.extractLsb' 0 1)⟩,
    ⟨true, 0xFF#8, 0x01#8, fun _ => .decFK0Last⟩,
    ⟨true, 0xFF#8, 0x81#8, fun _ => .decFK0More⟩ ]

/-- The FIRST = 0 rows (30_encoding.md R76). -/
def nextRows : List ClassRow :=
  [ ⟨false, 0x80#8, 0x00#8, fun b => .decNLast (wirePayload b)⟩,
    ⟨false, 0x80#8, 0x80#8, fun b => .decNMore (wirePayload b)⟩ ]

/-- All byte-class rows with a mask (30_encoding.md R76). -/
def classRows : List ClassRow := firstRowsHigh ++ firstRowsLow ++ nextRows

/-- The class of a byte under the current value of FIRST (30_encoding.md R76, R81). -/
def classify (first : Bool) (b : Byte) : Option Instr :=
  (classRows.find? fun r => (r.first == first) && r.hits b).map fun r => r.make b

/-- Why the decoder gives no instruction. -/
inductive DecodeError where
  /-- An ENC magnitude of 2^W or more: "a model refuses such a command" (30_encoding.md R78). -/
  | operandTooWide
  /-- No row of the byte-class table: never, since the classes are total (30_encoding.md R76). -/
  | noByteClass
deriving DecidableEq, Repr

/-- A command word: 0x01 is ENC, 0x02 is DEC, anything else is reserved (30_encoding.md R77, R79, R81). -/
def decodeCommand (w : Width) (c : Command) : Except DecodeError Instr :=
  if c.word = 0x01#8 then
    if w.fits c.vmag then .ok (.enc c.vsign c.vmag) else .error .operandTooWide
  else if c.word = 0x02#8 then .ok .dec
  else .ok (.reserved c.word)

/-- A source answer: a byte by its class under FIRST, or END (30_encoding.md R76, R81). -/
def decodeAnswer (first : Bool) : Answer → Except DecodeError Instr
  | .byte b =>
    match classify first b with
    | some i => .ok i
    | none => .error .noByteClass
  | .fin => .ok .decEnd

/-- The decoder, total on whatever stands at a port: the two tables of 30_encoding.md R81, "Nothing else is
decoded". -/
def decode (w : Width) (first : Bool) : PortWord → Except DecodeError Instr
  | .cmd c => decodeCommand w c
  | .answer a => decodeAnswer first a

/-! The encoder: the bytes of the table's patterns (30_encoding.md R76), then the words at the ports. -/

/-- `c0000000`. -/
def wireZero (c : Bool) : Byte := BitVec.ofBool c ++ 0#7
/-- `01pppppp`. -/
def wireFK6Last (p : BitVec 6) : Byte := 0b01#2 ++ p
/-- `11pppppp`. -/
def wireFK6More (p : BitVec 6) : Byte := 0b11#2 ++ p
/-- `001ppppp`. -/
def wireFK5Last (p : BitVec 5) : Byte := 0b001#3 ++ p
/-- `101ppppp`. -/
def wireFK5More (p : BitVec 5) : Byte := 0b101#3 ++ p
/-- `0001pppp`. -/
def wireFK4Last (p : BitVec 4) : Byte := 0b0001#4 ++ p
/-- `1001pppp`. -/
def wireFK4More (p : BitVec 4) : Byte := 0b1001#4 ++ p
/-- `00001ppp`. -/
def wireFK3Last (p : BitVec 3) : Byte := 0b00001#5 ++ p
/-- `10001ppp`. -/
def wireFK3More (p : BitVec 3) : Byte := 0b10001#5 ++ p
/-- `000001pp`. -/
def wireFK2Last (p : BitVec 2) : Byte := 0b000001#6 ++ p
/-- `100001pp`. -/
def wireFK2More (p : BitVec 2) : Byte := 0b100001#6 ++ p
/-- `0000001p`. -/
def wireFK1Last (p : BitVec 1) : Byte := 0b0000001#7 ++ p
/-- `1000001p`. -/
def wireFK1More (p : BitVec 1) : Byte := 0b1000001#7 ++ p
/-- `00000001`. -/
def wireFK0Last : Byte := 0b00000001#8
/-- `10000001`. -/
def wireFK0More : Byte := 0b10000001#8
/-- `0ppppppp`. -/
def wireNLast (p : Payload) : Byte := 0b0#1 ++ p
/-- `1ppppppp`. -/
def wireNMore (p : Payload) : Byte := 0b1#1 ++ p

/-- The word that stands at a port for an instruction (30_encoding.md R76, R77, R79). The operand of DEC and
of a reserved word is written as 0, as the assembler writes it (R82). -/
def encode : Instr → PortWord
  | .enc vsign vmag => .cmd ⟨0x01#8, vsign, vmag⟩
  | .dec => .cmd ⟨0x02#8, false, 0⟩
  | .reserved word => .cmd ⟨word, false, 0⟩
  | .decFZero c => .answer (.byte (wireZero c))
  | .decFK6Last p => .answer (.byte (wireFK6Last p))
  | .decFK6More p => .answer (.byte (wireFK6More p))
  | .decFK5Last p => .answer (.byte (wireFK5Last p))
  | .decFK5More p => .answer (.byte (wireFK5More p))
  | .decFK4Last p => .answer (.byte (wireFK4Last p))
  | .decFK4More p => .answer (.byte (wireFK4More p))
  | .decFK3Last p => .answer (.byte (wireFK3Last p))
  | .decFK3More p => .answer (.byte (wireFK3More p))
  | .decFK2Last p => .answer (.byte (wireFK2Last p))
  | .decFK2More p => .answer (.byte (wireFK2More p))
  | .decFK1Last p => .answer (.byte (wireFK1Last p))
  | .decFK1More p => .answer (.byte (wireFK1More p))
  | .decFK0Last => .answer (.byte wireFK0Last)
  | .decFK0More => .answer (.byte wireFK0More)
  | .decNLast p => .answer (.byte (wireNLast p))
  | .decNMore p => .answer (.byte (wireNMore p))
  | .decEnd => .answer .fin

/-- Where an 8-bit table word stands when nothing says which port carries it: the words of ENC and DEC are
commands with operand 0, every other word is a first wire byte. DESIGN CHOICE, log 10: the table's rows overlap
(0x01 is ENC, DEC.F.K0.LAST and DEC.N.LAST), and the port and FIRST, not the bits, tell them apart. -/
def tablePort (b : Byte) : PortWord :=
  if b = 0x01#8 ∨ b = 0x02#8 then .cmd ⟨b, false, 0⟩ else .answer (.byte b)

/-- The instruction of an 8-bit table word at its port (`tablePort`), read under FIRST = 1. Every instruction of
the block is one byte, so any other length is no instruction. -/
def decodeTableWord (nbits w : Nat) : Option Instr :=
  if nbits = 8 ∧ w < 256 then
    match decode .inf true (tablePort (BitVec.ofNat 8 w)) with
    | .ok i => some i
    | .error _ => none
  else none

end Sys2Proof
end

