-- ==== Sys2Proof/Machine/State.lean ====
section
/-! DEFINITION. The state of the VLQ Codec core and of its ports, the reasons a step or a host read can stop,
and the state right after reset (10_state.md R20, R31; 20_memory.md R51, R52). -/

namespace Sys2Proof.Machine

/-- PHASE (10_state.md R20). -/
inductive Phase where
  | idle
  | decPull
  | encPush
deriving DecidableEq, Repr

/-- How much the byte sink accepts: every byte at once (`.sink`, 30_encoding.md R83), or `n` more bytes and
then no answer (20_memory.md R52, 60_exceptions.md R181). -/
inductive SinkRoom where
  | always
  | bytes (n : Nat)
deriving DecidableEq, Repr

/-- STATUS, the 3-bit register CODE[2:0] (10_state.md R26). Codes 6 and 7 are reserved and never written. -/
abbrev StatusCode := BitVec 3

/-- Code 0, NONE (10_state.md R26). -/
def StatusCode.none : StatusCode := 0#3
/-- Code 1, OK (10_state.md R26). -/
def StatusCode.ok : StatusCode := 1#3
/-- Code 2, UNEXPECTED_END_OF_INPUT (10_state.md R26). -/
def StatusCode.unexpectedEnd : StatusCode := 2#3
/-- Code 3, INVALID_ARGUMENT (10_state.md R26). -/
def StatusCode.invalidArgument : StatusCode := 3#3
/-- Code 4, OVERFLOW (10_state.md R26). -/
def StatusCode.overflow : StatusCode := 4#3
/-- Code 5, ILLEGAL_COMMAND (10_state.md R26). -/
def StatusCode.illegalCommand : StatusCode := 5#3

/-- The machine. The first seven fields after `width` are the block's state tuple, "exactly" (10_state.md R20);
`width` is the build parameter W (log 2); the fields from `resetIn` on are what stands at the ports (log 6). -/
structure State where
  /-- W, fixed at build time (00_scope.md R6). -/
  width : Width
  /-- PHASE. -/
  phase : Phase
  /-- ACC, unbounded (10_state.md R23). -/
  acc : Nat
  /-- FIRST (10_state.md R24). -/
  first : Bool
  /-- OBUF, head first (10_state.md R25). -/
  obuf : List Byte
  /-- STATUS (10_state.md R26). -/
  status : StatusCode
  /-- RESULT: a Nat, or the spec's "no value" (10_state.md R27). -/
  result : Option Nat
  /-- RESULT_VALID (10_state.md R27). -/
  resultValid : Bool
  /-- The reset input is asserted (70_reset_and_hazards.md R200). -/
  resetIn : Bool
  /-- The commands the host offers and holds, oldest first (10_state.md R28, 70_reset_and_hazards.md R205). -/
  cmds : List Command
  /-- SRC: the bytes not yet pulled, next one first (20_memory.md R51). -/
  src : List Byte
  /-- The source answers END once SRC runs out (20_memory.md R51). -/
  srcEnd : Bool
  /-- SNK: the bytes received, oldest first (20_memory.md R52). -/
  snk : List Byte
  /-- What the sink still accepts (20_memory.md R52). -/
  snkRoom : SinkRoom
deriving DecidableEq, Repr

/-- Why the machine stops with a fault. -/
inductive Fault where
  /-- A host read of RESULT while it holds no value: "it treats the read as a host fault"
  (70_reset_and_hazards.md R206). Raised by `hostRead` only; no step raises it. Safe: a realisation may give a
  stale number, and no claim can use it. -/
  | resultHoldsNoValue
deriving DecidableEq, Repr

/-- Why a step or a host move has no meaning. -/
inductive Refusal where
  /-- An instruction that has no meaning yet. Raised by `exec`'s refused arms only. Safe. -/
  | notModelled (mnemonic : String)
  /-- An ENC magnitude of 2^W or more: "a model refuses such a command rather than give it a meaning"
  (30_encoding.md R78). Raised by the decoder and by ENC. Safe. -/
  | operandTooWide
  /-- A byte of no class. Never raised: every byte has a class in each phase (30_encoding.md R76). Safe. -/
  | noByteClass
  /-- The host takes bytes from the source while a DEC runs: "this spec does not say what the block computes"
  (70_reset_and_hazards.md R207). Raised by `hostMove` only. Safe. -/
  | sourceShared
  /-- The host writes to the sink while an ENC runs (70_reset_and_hazards.md R207). Raised by `hostMove` only.
  Safe. -/
  | sinkShared
deriving DecidableEq, Repr

/-- The machine right after reset: the block's elements at the values of 10_state.md R31, W at its reference
value (00_scope.md R6, log 2), and ports at which nothing stands yet (DESIGN CHOICE, log 6). -/
def State.reset : State where
  width := .inf
  phase := .idle
  acc := 0
  first := true
  obuf := []
  status := .none
  result := none
  resultValid := false
  resetIn := false
  cmds := []
  src := []
  srcEnd := false
  snk := []
  snkRoom := .always

end Sys2Proof.Machine
end

