-- ==== Sys2Proof/Machine/Flags.lean ====
section
/-! DEFINITION. The block's 1-bit flags (10_state.md R29): BUSY, FIRST, RESULT_VALID, and the enabling conditions
made of PHASE and FIRST (10_state.md R34). -/

namespace Sys2Proof.Machine

/-- `BUSY = (PHASE != IDLE)` (10_state.md R22). -/
def State.busy (s : State) : Bool := s.phase != .idle

/-- RESULT_VALID <- 0. RESULT then "holds no value" (10_state.md R27, 92_eei_decisions.md D9; DEDUCED, log 3). -/
def State.clearResult (s : State) : State := { s with result := none, resultValid := false }

/-- RESULT <- v together with RESULT_VALID <- 1 (10_state.md R27). -/
def State.putResult (v : Nat) (s : State) : State := { s with result := some v, resultValid := true }

/-- The block takes a source answer for a byte class that needs this value of FIRST (10_state.md R34,
30_encoding.md R76). -/
def State.pulling (s : State) (first : Bool) : Bool := s.phase == .decPull && s.first == first

end Sys2Proof.Machine
end

