-- ==== Sys2Proof/Machine/Operands.lean ====
section
/-! DEFINITION. The operand forms: ENC's sign and magnitude (30_encoding.md R78), the bit-position scanner SCAN
(40_decoder.md R100), the group accumulator ACCUM (R103) with its finite realisation (R105), and the encoder's
output function ENCBYTES (45_encoder.md R141). -/

namespace Sys2Proof.Machine

/-- `v = -VMAG` if VSIGN = 1, else `v = VMAG`; a sign bit with magnitude 0 is 0 (30_encoding.md R78). -/
def operandValue (vsign : Bool) (vmag : Nat) : Int := if vsign then -(vmag : Int) else (vmag : Int)

/-- SCAN's loop over the bits i-1 down to 0 (40_decoder.md R100). -/
def scanBelow (p : Payload) : Nat → Option Nat
  | 0 => none
  | i + 1 => if p.getLsbD i then some i else scanBelow p i

/-- `SCAN(p)`: the position of the highest set bit, or NONE (40_decoder.md R100). -/
def scan (p : Payload) : Option Nat := scanBelow p 7

/-- A scan from bit 0 upward that keeps the last set bit (40_decoder.md R102): bits i-1 down to 0 seen so far,
`kept` the last one found. -/
def scanUpFrom (p : Payload) (bit : Nat) (kept : Option Nat) : Nat → Option Nat
  | 0 => kept
  | n + 1 => scanUpFrom p (bit + 1) (if p.getLsbD bit then some bit else kept) n

/-- The upward realisation of the scanner (40_decoder.md R102). -/
def scanUp (p : Payload) : Option Nat := scanUpFrom p 0 none 7

/-- `b[k:0]`, the low k+1 bits of a byte (00_scope.md R10, R11). -/
def lowBits (b : Byte) (k : Nat) : Nat := b.toNat % 2 ^ (k + 1)

/-- `ACCUM(acc, b, k) = (acc << (k+1)) | b[k:0]` (40_decoder.md R103). -/
def accum (acc : Nat) (b : Byte) (k : Nat) : Nat := (acc <<< (k + 1)) ||| lowBits b k

/-- ACC realised in W bits plus a sticky bit (40_decoder.md R105). -/
structure StickyAcc where
  low : Nat
  sticky : Bool
deriving DecidableEq, Repr

/-- ACCUM on that realisation: the sticky bit is set when ACCUM would produce a value of 2^W or more, and W bits
are kept (40_decoder.md R105). DESIGN CHOICE, log 14: R105 does not say what the W bits hold once the sticky bit is
set; the model keeps ACC's low W bits, ACC mod 2^W. -/
def stickyAccum (w : Nat) (a : StickyAcc) (b : Byte) (k : Nat) : StickyAcc where
  low := accum a.low b k % 2 ^ w
  sticky := a.sticky || decide (2 ^ w ≤ accum a.low b k)

/-- ENCBYTES' do-while loop (45_encoder.md R141): `g` is the low 7 bits, `v` is shifted right by 7, every group
but the first produced gets C = 1, and the group is prepended. The first argument bounds the iterations. -/
def encLoop : Nat → Nat → List Byte → List Byte
  | 0, _, out => out
  | n + 1, v, out =>
    let g : Byte := BitVec.ofNat 8 (v % 128)
    let g := if out.isEmpty then g else g ||| 0x80#8
    if v >>> groupBits > 0 then encLoop n (v >>> groupBits) (g :: out) else g :: out

/-- `ENCBYTES(v)` (45_encoder.md R141). A value of n bits has at most n groups, so the loop's bound is never
what ends it (Laws/Encoder.lean, `encLoop_bound`). -/
def encBytes (v : Nat) : List Byte := encLoop (v.log2 + 1) v []

end Sys2Proof.Machine
end

