-- ==== Sys2Proof/Machine/Ops.lean ====
section
/-! DEFINITION. The shared operations over the registers and the two byte streams: completion, raising an
exception, DEC's termination, pull and push, the reset of the block, and the holds. -/

namespace Sys2Proof.Machine

/-- `complete(s)`: STATUS <- s, PHASE <- IDLE (00_scope.md R12). -/
def State.complete (c : StatusCode) (s : State) : State := { s with status := c, phase := .idle }

/-- The four exceptions (60_exceptions.md R171). -/
inductive Exc where
  | unexpectedEnd
  | invalidArgument
  | overflow
  | illegalCommand
deriving DecidableEq, Repr

/-- The STATUS code of an exception (60_exceptions.md R171). -/
def Exc.code : Exc → StatusCode
  | .unexpectedEnd => .unexpectedEnd
  | .invalidArgument => .invalidArgument
  | .overflow => .overflow
  | .illegalCommand => .illegalCommand

/-- `raise E`, the taking of an exception: STATUS <- E, RESULT_VALID <- 0, OBUF <- [], PHASE <- IDLE; ACC and
FIRST are kept, and there is no return (60_exceptions.md R177, R178; log 11, log 15). -/
def State.raise (e : Exc) (s : State) : State := { s.clearResult with status := e.code, obuf := [], phase := .idle }

/-- `Terminate()`: OVERFLOW if W is finite and ACC ≥ 2^W, else RESULT <- ACC and complete(OK)
(40_decoder.md R111). -/
def State.terminate (s : State) : State :=
  if s.width.fits s.acc then (s.putResult s.acc).complete .ok else s.raise .overflow

/-- FIRST <- 0 and ACC <- ACCUM(ACC, b, k): the part of 40_decoder.md R109 and R110 that LAST and MORE share. -/
def State.takeGroup (b : Byte) (k : Nat) (s : State) : State :=
  { s with first := false, acc := accum s.acc b k }

/-- DEC acceptance (40_decoder.md R106). -/
def State.acceptDec (s : State) : State :=
  { s.clearResult with acc := 0, first := true, status := .none, phase := .decPull }

/-- ENC acceptance of a non-negative value (45_encoder.md R140). -/
def State.acceptEnc (v : Nat) (s : State) : State :=
  { s.clearResult with obuf := encBytes v, status := .none, phase := .encPush }

/-- The answer the source gives now: its next byte, END once the bytes have run out and it says so, or nothing
yet (20_memory.md R51). -/
def State.sourceAnswer (s : State) : Option Answer :=
  match s.src with
  | b :: _ => some (.byte b)
  | [] => if s.srcEnd then some .fin else none

/-- The source after that answer: a byte is removed, END "removes nothing" (20_memory.md R51, R57). -/
def State.afterPull (s : State) : State := { s with src := s.src.tail }

/-- A byte that the block does not pull stays at the head of the source (20_memory.md R51: "The block pulls only
while PHASE = DEC_PULL"; log 5). -/
def State.leaveByte (b : Byte) (s : State) : State := { s with src := b :: s.src }

/-- A command that the block does not accept is "held by the host, not lost and not an error"
(70_reset_and_hazards.md R205; log 5). -/
def State.holdCommand (c : Command) (s : State) : State := { s with cmds := c :: s.cmds }

/-- The sink accepts a byte now (20_memory.md R52). -/
def State.sinkAccepts (s : State) : Bool :=
  match s.snkRoom with
  | .always => true
  | .bytes n => decide (0 < n)

/-- What the sink still accepts after one more byte. -/
def SinkRoom.less : SinkRoom → SinkRoom
  | .always => .always
  | .bytes n => .bytes (n - 1)

/-- `OutPush(b)`, accepted: `b` is appended to SNK (20_memory.md R52). -/
def State.outPush (b : Byte) (s : State) : State :=
  { s with snk := s.snk ++ [b], snkRoom := s.snkRoom.less }

/-- EncPush (45_encoder.md R143): the head of OBUF is pushed if the sink accepts; with the last byte the operation
completes with OK. A sink that does not accept, and an OBUF with nothing to push, leave no step
(60_exceptions.md R181; log 4). -/
def State.encPush (s : State) : State :=
  match s.obuf with
  | [] => s
  | b :: rest =>
    if s.sinkAccepts then
      if rest.isEmpty then ({ s.outPush b with obuf := rest }).complete .ok
      else { s.outPush b with obuf := rest }
    else s

/-- Reset of the block: every element to its reset value; the streams keep the I/O already done
(70_reset_and_hazards.md R200, R201). The reset input is then taken (log 7). -/
def State.resetBlock (s : State) : State :=
  { s with
    phase := .idle, acc := 0, first := true, obuf := [], status := .none, result := none, resultValid := false,
    resetIn := false }

end Sys2Proof.Machine
end

