-- ==== Sys2Proof/Machine/Command.lean ====
section
/-! DEFINITION. The reserved command words (30_encoding.md R79). -/

namespace Sys2Proof.Machine

/-- A reserved word: accepted while PHASE = IDLE, it completes at once with ILLEGAL_COMMAND and no I/O
(30_encoding.md R79, 60_exceptions.md R175). While BUSY = 1 it is held (70_reset_and_hazards.md R205). -/
def execReserved (word : Byte) (s : State) : Host.Outcome State Fault Refusal :=
  if s.busy then .next (s.holdCommand ⟨word, false, 0⟩) else .next (s.raise .illegalCommand)

end Sys2Proof.Machine
end

