-- ==== Sys2Proof/Machine/Decoder.lean ====
section
/-! DEFINITION. The command DEC and the decoder's byte classes (40_decoder.md R106 to R111). A class's meaning is
applied to the state after the pull; a class that is not the decoder's in this state leaves its byte at the
source (log 5). -/

namespace Sys2Proof.Machine

/-- DEC, the acceptance step (40_decoder.md R106). While BUSY = 1 the command is held
(70_reset_and_hazards.md R205). -/
def execDec (s : State) : Host.Outcome State Fault Refusal :=
  if s.busy then .next (s.holdCommand ⟨0x02#8, false, 0⟩) else .next s.acceptDec

/-- A first byte with offset `k` and C = 0 (40_decoder.md R109, then R111). -/
def firstLast (k : Nat) (b : Byte) (s : State) : State :=
  if s.pulling true then (s.takeGroup b k).terminate else s.leaveByte b

/-- A first byte with offset `k` and C = 1 (40_decoder.md R109). -/
def firstMore (k : Nat) (b : Byte) (s : State) : State :=
  if s.pulling true then s.takeGroup b k else s.leaveByte b

/-- DEC.F.ZERO: RESULT <- 0, complete(OK), whatever the continuation bit; FIRST and ACC are left
(40_decoder.md R108). -/
def execDecFZero (c : Bool) (s : State) : Host.Outcome State Fault Refusal :=
  if s.pulling true then .next ((s.putResult 0).complete .ok) else .next (s.leaveByte (wireZero c))

/-- DEC.F.K6.LAST (40_decoder.md R109). -/
def execDecFK6Last (p : BitVec 6) (s : State) : Host.Outcome State Fault Refusal :=
  .next (firstLast 6 (wireFK6Last p) s)

/-- DEC.F.K6.MORE (40_decoder.md R109). -/
def execDecFK6More (p : BitVec 6) (s : State) : Host.Outcome State Fault Refusal :=
  .next (firstMore 6 (wireFK6More p) s)

/-- DEC.F.K5.LAST (40_decoder.md R109). -/
def execDecFK5Last (p : BitVec 5) (s : State) : Host.Outcome State Fault Refusal :=
  .next (firstLast 5 (wireFK5Last p) s)

/-- DEC.F.K5.MORE (40_decoder.md R109). -/
def execDecFK5More (p : BitVec 5) (s : State) : Host.Outcome State Fault Refusal :=
  .next (firstMore 5 (wireFK5More p) s)

/-- DEC.F.K4.LAST (40_decoder.md R109). -/
def execDecFK4Last (p : BitVec 4) (s : State) : Host.Outcome State Fault Refusal :=
  .next (firstLast 4 (wireFK4Last p) s)

/-- DEC.F.K4.MORE (40_decoder.md R109). -/
def execDecFK4More (p : BitVec 4) (s : State) : Host.Outcome State Fault Refusal :=
  .next (firstMore 4 (wireFK4More p) s)

/-- DEC.F.K3.LAST (40_decoder.md R109). -/
def execDecFK3Last (p : BitVec 3) (s : State) : Host.Outcome State Fault Refusal :=
  .next (firstLast 3 (wireFK3Last p) s)

/-- DEC.F.K3.MORE (40_decoder.md R109). -/
def execDecFK3More (p : BitVec 3) (s : State) : Host.Outcome State Fault Refusal :=
  .next (firstMore 3 (wireFK3More p) s)

/-- DEC.F.K2.LAST (40_decoder.md R109). -/
def execDecFK2Last (p : BitVec 2) (s : State) : Host.Outcome State Fault Refusal :=
  .next (firstLast 2 (wireFK2Last p) s)

/-- DEC.F.K2.MORE (40_decoder.md R109). -/
def execDecFK2More (p : BitVec 2) (s : State) : Host.Outcome State Fault Refusal :=
  .next (firstMore 2 (wireFK2More p) s)

/-- DEC.F.K1.LAST (40_decoder.md R109). -/
def execDecFK1Last (p : BitVec 1) (s : State) : Host.Outcome State Fault Refusal :=
  .next (firstLast 1 (wireFK1Last p) s)

/-- DEC.F.K1.MORE (40_decoder.md R109). -/
def execDecFK1More (p : BitVec 1) (s : State) : Host.Outcome State Fault Refusal :=
  .next (firstMore 1 (wireFK1More p) s)

/-- DEC.F.K0.LAST (40_decoder.md R109). -/
def execDecFK0Last (s : State) : Host.Outcome State Fault Refusal :=
  .next (firstLast 0 wireFK0Last s)

/-- DEC.F.K0.MORE (40_decoder.md R109). -/
def execDecFK0More (s : State) : Host.Outcome State Fault Refusal :=
  .next (firstMore 0 wireFK0More s)

/-- DEC.N.LAST: offset 6, C = 0 (40_decoder.md R110, then R111). -/
def execDecNLast (p : Payload) (s : State) : Host.Outcome State Fault Refusal :=
  if s.pulling false then .next (s.takeGroup (wireNLast p) fullOffset).terminate
  else .next (s.leaveByte (wireNLast p))

/-- DEC.N.MORE: offset 6, C = 1 (40_decoder.md R110). -/
def execDecNMore (p : Payload) (s : State) : Host.Outcome State Fault Refusal :=
  if s.pulling false then .next (s.takeGroup (wireNMore p) fullOffset) else .next (s.leaveByte (wireNMore p))

/-- DEC.END: END while PHASE = DEC_PULL raises UNEXPECTED_END_OF_INPUT (40_decoder.md R107,
60_exceptions.md R172). END removes nothing from the source, so in another phase nothing changes. -/
def execDecEnd (s : State) : Host.Outcome State Fault Refusal :=
  if s.phase = .decPull then .next (s.raise .unexpectedEnd) else .next s

end Sys2Proof.Machine
end

