-- ==== Sys2Proof/Machine/Encoder.lean ====
section
/-! DEFINITION. The command ENC (45_encoder.md R140, R148). Its push steps are `State.encPush` (R143). -/

namespace Sys2Proof.Machine

/-- ENC, the acceptance step (45_encoder.md R140): INVALID_ARGUMENT for v < 0, else OBUF <- ENCBYTES(v) and
PHASE <- ENC_PUSH. While BUSY = 1 the command is held (70_reset_and_hazards.md R205). A magnitude of 2^W or more
is refused (30_encoding.md R78). -/
def execEnc (vsign : Bool) (vmag : Nat) (s : State) : Host.Outcome State Fault Refusal :=
  if s.busy then .next (s.holdCommand ⟨0x01#8, vsign, vmag⟩)
  else if s.width.fits vmag then
    if operandValue vsign vmag < 0 then .next (s.raise .invalidArgument)
    else .next (s.acceptEnc (operandValue vsign vmag).toNat)
  else .refused .operandTooWide

end Sys2Proof.Machine
end

