-- ==== Sys2Proof/Machine/Dispatch.lean ====
section
/-! DEFINITION. One arm per row of the opcode table. -/

namespace Sys2Proof.Machine

def exec (i : Instr) (s : State) : Host.Outcome State Fault Refusal :=
  match i with
  | .enc vsign vmag => Sys2Proof.Machine.execEnc vsign vmag s
  | .dec => Sys2Proof.Machine.execDec s
  | .reserved word => Sys2Proof.Machine.execReserved word s
  | .decFZero c => Sys2Proof.Machine.execDecFZero c s
  | .decFK6Last p => Sys2Proof.Machine.execDecFK6Last p s
  | .decFK6More p => Sys2Proof.Machine.execDecFK6More p s
  | .decFK5Last p => Sys2Proof.Machine.execDecFK5Last p s
  | .decFK5More p => Sys2Proof.Machine.execDecFK5More p s
  | .decFK4Last p => Sys2Proof.Machine.execDecFK4Last p s
  | .decFK4More p => Sys2Proof.Machine.execDecFK4More p s
  | .decFK3Last p => Sys2Proof.Machine.execDecFK3Last p s
  | .decFK3More p => Sys2Proof.Machine.execDecFK3More p s
  | .decFK2Last p => Sys2Proof.Machine.execDecFK2Last p s
  | .decFK2More p => Sys2Proof.Machine.execDecFK2More p s
  | .decFK1Last p => Sys2Proof.Machine.execDecFK1Last p s
  | .decFK1More p => Sys2Proof.Machine.execDecFK1More p s
  | .decFK0Last => Sys2Proof.Machine.execDecFK0Last s
  | .decFK0More => Sys2Proof.Machine.execDecFK0More s
  | .decNLast p => Sys2Proof.Machine.execDecNLast p s
  | .decNMore p => Sys2Proof.Machine.execDecNMore p s
  | .decEnd => Sys2Proof.Machine.execDecEnd s

end Sys2Proof.Machine
end

