-- ==== Sys2Proof/Machine/Fetch.lean ====
section
/-! DEFINITION. What the block takes next from its ports (10_state.md R34), and the placing of one table word
where the next step takes it. The block fetches no stored program (20_memory.md R64). -/

namespace Sys2Proof.Machine

/-- The port word the block takes in this state, with the state after it is taken: a command while
PHASE = IDLE, a source answer while PHASE = DEC_PULL; `none` when nothing stands there or the phase takes none
(10_state.md R34). -/
def State.fetch (s : State) : Option (PortWord × State) :=
  match s.phase with
  | .idle =>
    match s.cmds with
    | [] => none
    | c :: rest => some (.cmd c, { s with cmds := rest })
  | .decPull =>
    match s.sourceAnswer with
    | none => none
    | some a => some (.answer a, s.afterPull)
  | .encPush => none

/-- The refusal a decode error becomes (30_encoding.md R78, R76). -/
def refusalOf : DecodeError → Refusal
  | .operandTooWide => .operandTooWide
  | .noByteClass => .noByteClass

/-- A port word placed where the next step takes it: a command at the head of the command port of an idle block, a
first wire byte at the head of the source of a pulling block, END at an exhausted source. -/
def State.place (x : PortWord) (s : State) : State :=
  match x with
  | .cmd c => { s with resetIn := false, phase := .idle, cmds := c :: s.cmds }
  | .answer (.byte b) => { s with resetIn := false, phase := .decPull, first := true, src := b :: s.src }
  | .answer .fin => { s with resetIn := false, phase := .decPull, src := [], srcEnd := true }

/-- The state with an 8-bit table word at its port (`tablePort`; log 10); any other length is no instruction of the
block and changes nothing. -/
def State.placeTableWord (s : State) (nbits w : Nat) : State :=
  if nbits = 8 ∧ w < 256 then s.place (tablePort (BitVec.ofNat 8 w)) else s

end Sys2Proof.Machine
end

