-- ==== Sys2Proof/Machine/Step.lean ====
section
/-! DEFINITION. One step of the machine: Reset, Accept, DecByte or EncPush, "and by no others" (10_state.md R34). -/

namespace Sys2Proof.Machine

/-- A taken port word is decoded under W and FIRST and run. -/
def runWord (x : PortWord) (s : State) : Host.Outcome State Fault Refusal :=
  match decode s.width s.first x with
  | .ok i => exec i s
  | .error e => .refused (refusalOf e)

/-- One step (10_state.md R34). An asserted reset input is taken in every state (70_reset_and_hazards.md R200).
Where no step is enabled the block holds and its state survives unchanged (60_exceptions.md R181; log 4). -/
def step (s : State) : Host.Outcome State Fault Refusal :=
  if s.resetIn then .next s.resetBlock
  else
    match s.phase with
    | .encPush => .next s.encPush
    | _ =>
      match s.fetch with
      | some (x, s') => runWord x s'
      | none => .next s

/-- The state with an instruction placed so that the next step takes it (log 10). -/
def State.withFetchWord (s : State) (nbits w : Nat) : State := s.placeTableWord nbits w

end Sys2Proof.Machine
end

