-- ==== Sys2Proof/Machine/Assembler.lean ====
section
/-! DEFINITION. The assembler syntax of programs and the host's directives (30_encoding.md R82, R83), on lists of
characters, and the start state of a program. The grammar's corners are DESIGN CHOICE, log 17. -/

namespace Sys2Proof.Machine

/-- Why a line is no line of the syntax. -/
inductive AsmError where
  | badLine
  | badInteger
  | badByte
  | badWidth
  | badSource
deriving DecidableEq, Repr

/-- One line: nothing, a command, or a directive (30_encoding.md R82, R83). -/
inductive AsmLine where
  | blank
  | command (c : Command)
  | width (w : Width)
  | source (bs : List Byte) (fin : Bool)
  | sink
deriving DecidableEq, Repr

/-- The value of a digit character below `base`. Both letter cases of a hex digit are read: DESIGN CHOICE, log 17. -/
def asmDigit (base : Nat) (c : Char) : Option Nat :=
  let n := c.toNat
  let d := if 48 ≤ n ∧ n ≤ 57 then n - 48 else if 65 ≤ n ∧ n ≤ 70 then n - 55
    else if 97 ≤ n ∧ n ≤ 102 then n - 87 else base
  if d < base then some d else none

/-- The number that digits after `acc` spell. -/
def asmDigits (base : Nat) : Nat → List Char → Option Nat
  | acc, [] => some acc
  | acc, c :: cs =>
    match asmDigit base c with
    | some d => asmDigits base (acc * base + d) cs
    | none => none

/-- A decimal or `0x` hex natural number, with at least one digit (30_encoding.md R82, for `<int>`). Leading zeros are
read, and the same two forms serve `.word`, `.width` and `.source`: DESIGN CHOICE, log 17. -/
def asmNat : List Char → Option Nat
  | [] => none
  | '0' :: 'x' :: c :: cs => asmDigits 16 0 (c :: cs)
  | c :: cs => asmDigits 10 0 (c :: cs)

/-- `<int>`: "optionally preceded by `-`", as VSIGN and VMAG (30_encoding.md R78, R82). -/
def asmInt : List Char → Option (Bool × Nat)
  | '-' :: cs => (asmNat cs).map fun n => (true, n)
  | cs => (asmNat cs).map fun n => (false, n)

/-- A byte, in either form of `asmNat`, for `.word` and the items of `.source`. DESIGN CHOICE, log 17: R82 writes
`.word 0xNN`, and the model also takes a decimal number and hex digits of any count, so long as the value is below 256;
R83 leaves the number base of `b` open. -/
def asmByte (cs : List Char) : Option Byte :=
  match asmNat cs with
  | some n => if n < 256 then some (BitVec.ofNat 8 n) else none
  | none => none

/-- Pieces of a line between the characters `sep` marks, in order; empty pieces are kept. -/
def asmPieces (sep : Char → Bool) : List Char → List (List Char)
  | [] => [[]]
  | c :: cs =>
    if sep c then [] :: asmPieces sep cs
    else
      match asmPieces sep cs with
      | [] => [[c]]
      | p :: ps => (c :: p) :: ps

/-- The words of a line, its comment removed (30_encoding.md R82: "Text after `;` is a comment"). -/
def asmWords (cs : List Char) : List (List Char) :=
  (asmPieces (fun c => c == ' ' || c == '\t') (cs.takeWhile fun c => c != ';')).filter fun p => !p.isEmpty

/-- The items of a source list: bytes, and END in the last place only (30_encoding.md R83). -/
def asmItems : List (List Char) → Option (List Byte × Bool)
  | [] => some ([], false)
  | p :: ps =>
    if p = ['E', 'N', 'D'] then (if ps.isEmpty then some ([], true) else none)
    else
      match asmByte p, asmItems ps with
      | some b, some (bs, fin) => some (b :: bs, fin)
      | _, _ => none

/-- The items before the closing bracket, which ends the list. -/
def asmInside : List Char → Option (List Char)
  | [] => none
  | [c] => if c = ']' then some [] else none
  | c :: cs => (asmInside cs).map fun r => c :: r

/-- `[b, b, ..., END]`, its blanks already removed. -/
def asmSource : List Char → Option (List Byte × Bool)
  | '[' :: cs =>
    match asmInside cs with
    | some [] => some ([], false)
    | some inner => asmItems (asmPieces (fun c => c == ',') inner)
    | none => none
  | _ => none

/-- ENC and its aliases ENCODE and WRITE (30_encoding.md R82). -/
def asmIsEnc (m : List Char) : Bool :=
  m == ['E', 'N', 'C'] || m == ['E', 'N', 'C', 'O', 'D', 'E'] || m == ['W', 'R', 'I', 'T', 'E']

/-- DEC and its aliases DECODE and READ (30_encoding.md R82). -/
def asmIsDec (m : List Char) : Bool :=
  m == ['D', 'E', 'C'] || m == ['D', 'E', 'C', 'O', 'D', 'E'] || m == ['R', 'E', 'A', 'D']

/-- `.width <n | inf>` with n ≥ 1 (30_encoding.md R83, 00_scope.md R6). DESIGN CHOICE, log 17: R83 leaves the number
base of `n` open, and the model reads decimal, or hex after `0x`. -/
def asmWidth (cs : List Char) : Except AsmError AsmLine :=
  if cs = ['i', 'n', 'f'] then .ok (.width .inf)
  else
    match asmNat cs with
    | some n => if 1 ≤ n then .ok (.width (.finite n)) else .error .badWidth
    | none => .error .badWidth

/-- A line of two words: `ENC <int>`, `.word 0xNN` or `.width …` (30_encoding.md R82, R83). That `.word` takes every form of
`asmByte`, a decimal operand too, is the model's: DESIGN CHOICE, log 17. -/
def asmPair (m a : List Char) : Except AsmError AsmLine :=
  if asmIsEnc m then
    match asmInt a with
    | some (sg, n) => .ok (.command ⟨0x01#8, sg, n⟩)
    | none => .error .badInteger
  else if m = ['.', 'w', 'o', 'r', 'd'] then
    match asmByte a with
    | some b => .ok (.command ⟨b, false, 0⟩)
    | none => .error .badByte
  else if m = ['.', 'w', 'i', 'd', 't', 'h'] then asmWidth a
  else .error .badLine

/-- `.source` with its list, which may hold blanks. -/
def asmSourceLine (ps : List (List Char)) : Except AsmError AsmLine :=
  match asmSource ps.flatten with
  | some (bs, fin) => .ok (.source bs fin)
  | none => .error .badSource

/-- One line of a program (30_encoding.md R82, R83). -/
def asmLine (cs : List Char) : Except AsmError AsmLine :=
  match asmWords cs with
  | [] => .ok .blank
  | [m] =>
    if asmIsDec m then .ok (.command ⟨0x02#8, false, 0⟩)
    else if m = ['.', 's', 'i', 'n', 'k'] then .ok .sink
    else .error .badLine
  | m :: ps =>
    if m = ['.', 's', 'o', 'u', 'r', 'c', 'e'] then asmSourceLine ps
    else
      match ps with
      | [a] => asmPair m a
      | _ => .error .badLine

/-- What a line adds to a program's start state: a command is offered after the earlier ones, a directive sets the
host's part (30_encoding.md R83). DESIGN CHOICE, log 17: where a directive is repeated, the later one replaces what
the earlier one set. -/
def AsmLine.apply (l : AsmLine) (s : State) : State :=
  match l with
  | .blank => s
  | .command c => { s with cmds := s.cmds ++ [c] }
  | .width w => { s with width := w }
  | .source bs fin => { s with src := bs, srcEnd := fin }
  | .sink => { s with snk := [], snkRoom := .always }

/-- The start state of a program: "Every program starts from reset", with the source and the sink "as the
directives give them" (95_test_vectors.md L3). -/
def assemble (s : State) : List (List Char) → Except AsmError State
  | [] => .ok s
  | l :: ls =>
    match asmLine l with
    | .ok a => assemble (a.apply s) ls
    | .error e => .error e

/-- A program's text, split into lines, becomes the state that a run of the machine starts from. DESIGN CHOICE, log 17:
30_encoding.md R82 says "one command per line" and not what ends a line; the model ends it at a line feed and nowhere
else, so a carriage return is part of the word it stands in. -/
def programStart (text : String) : Except AsmError State :=
  assemble State.reset (asmPieces (fun c => c == '\n') text.toList)

end Sys2Proof.Machine
end

