-- ==== Sys2Proof/Machine/Platform.lean ====
section
/-! DEFINITION. Several instances of the block on one platform (00_scope.md R9, 60_exceptions.md R182): each has
its own state, command port, source and sink, and they have no identifiers and no way to signal one another. -/

namespace Sys2Proof.Machine

/-- A platform's instances, each a whole State (60_exceptions.md R182). Their number is the platform's choice
(00_scope.md R9). -/
abbrev Platform := List State

/-- Instance `i` takes a step; where there is no such instance nothing happens (log 18). -/
def Platform.stepAt (i : Nat) (p : Platform) : Host.Outcome Platform Fault Refusal :=
  match p[i]? with
  | none => .next p
  | some s =>
    match step s with
    | .next t => .next (p.set i t)
    | .fault r => .fault r
    | .refused r => .refused r

end Sys2Proof.Machine
end

