-- ==== Sys2Proof/Machine/HostPort.lean ====
section
/-! DEFINITION. What the host does between steps: it reads four registers and moves at the ports
(10_state.md R32, 20_memory.md R51, R52, 70_reset_and_hazards.md R203 to R210). The block's step never calls
these; they are the environment's moves. -/

namespace Sys2Proof.Machine

/-- The host-readable registers (10_state.md R32). -/
inductive HostReg where
  | busy
  | status
  | result
  | resultValid
deriving DecidableEq, Repr

/-- A host read, allowed "at any time" (10_state.md R32). RESULT is meaningful only when BUSY = 0 and
RESULT_VALID = 1; any other read of it is a host fault (70_reset_and_hazards.md R206; log 16). -/
def hostRead (r : HostReg) (s : State) : Except Fault Nat :=
  match r with
  | .busy => .ok s.busy.toNat
  | .status => .ok s.status.toNat
  | .resultValid => .ok s.resultValid.toNat
  | .result =>
    if s.busy || !s.resultValid then .error .resultHoldsNoValue
    else
      match s.result with
      | some v => .ok v
      | none => .error .resultHoldsNoValue

/-- What the host can do at the ports. -/
inductive HostMove where
  /-- Offer a command; while BUSY = 1 the host holds it (70_reset_and_hazards.md R205). -/
  | offer (c : Command)
  /-- The source's sequence grows (20_memory.md R51: "possibly still growing"). -/
  | feed (bs : List Byte)
  /-- The source will answer END once its bytes run out (20_memory.md R51). -/
  | endSource
  /-- The source no longer answers END: it may be live (92_eei_decisions.md D29). -/
  | resumeSource
  /-- The sink accepts `n` more bytes (20_memory.md R52). -/
  | grant (n : Nat)
  /-- The sink stops accepting (70_reset_and_hazards.md R209). -/
  | stall
  /-- Connect a source (70_reset_and_hazards.md R203). -/
  | connectSource (bs : List Byte) (fin : Bool)
  /-- Connect a sink that has received `bs` (70_reset_and_hazards.md R203). -/
  | connectSink (bs : List Byte) (room : SinkRoom)
  /-- Another agent pulls `n` bytes from the source (70_reset_and_hazards.md R207). -/
  | takeSource (n : Nat)
  /-- Another agent pushes bytes to the sink (70_reset_and_hazards.md R207). -/
  | writeSink (bs : List Byte)
  /-- Assert the reset input (70_reset_and_hazards.md R200). -/
  | assertReset
deriving DecidableEq, Repr

/-- The sink's room after `n` more bytes are granted. -/
def SinkRoom.more (n : Nat) : SinkRoom → SinkRoom
  | .always => .always
  | .bytes m => .bytes (m + n)

/-- A change of the source from outside: refused while a DEC runs, since the spec "does not say what the block
computes" then; free otherwise (70_reset_and_hazards.md R207, 93_implementation_defined.md item 14). -/
def State.withSource (bs : List Byte) (fin : Bool) (s : State) : Host.Outcome State Fault Refusal :=
  if s.phase = .decPull then .refused .sourceShared else .next { s with src := bs, srcEnd := fin }

/-- A change of the sink from outside: refused while an ENC runs (70_reset_and_hazards.md R207). -/
def State.withSink (bs : List Byte) (room : SinkRoom) (s : State) : Host.Outcome State Fault Refusal :=
  if s.phase = .encPush then .refused .sinkShared else .next { s with snk := bs, snkRoom := room }

/-- A host move. None writes a register of the block (10_state.md R32). -/
def hostMove (m : HostMove) (s : State) : Host.Outcome State Fault Refusal :=
  match m with
  | .offer c => .next { s with cmds := s.cmds ++ [c] }
  | .feed bs => .next { s with src := s.src ++ bs }
  | .endSource => .next { s with srcEnd := true }
  | .resumeSource => .next { s with srcEnd := false }
  | .grant n => .next { s with snkRoom := s.snkRoom.more n }
  | .stall => .next { s with snkRoom := .bytes 0 }
  | .connectSource bs fin => s.withSource bs fin
  | .connectSink bs room => s.withSink bs room
  | .takeSource n => s.withSource (s.src.drop n) s.srcEnd
  | .writeSink bs => s.withSink (s.snk ++ bs) s.snkRoom
  | .assertReset => .next { s with resetIn := true }

end Sys2Proof.Machine
end

