-- ==== Sys2Proof/Machine/Reference.lean ====
section
/-! DEFINITION. The spec's own whole-operation descriptions, apart from the machine's steps: the DecByte step as
one piece (40_decoder.md R107), the DEC loop (R112), plain base-128 decoding (R114), and which byte sequences are
one whole encoded value (30_encoding.md R75). The step function does not use them; statements compare it with
them. -/

namespace Sys2Proof.Machine

/-- DecByte on a byte, as R107 to R110 of 40_decoder.md write it with SCAN, whatever the byte's class. -/
def State.decByte (b : Byte) (s : State) : State :=
  if s.first then
    match scan (wirePayload b) with
    | none => (s.putResult 0).complete .ok
    | some k => if wireMore b then s.takeGroup b k else (s.takeGroup b k).terminate
  else if wireMore b then s.takeGroup b fullOffset
  else (s.takeGroup b fullOffset).terminate

/-- How a DEC ends: STATUS, RESULT, the internal registers it leaves, and the bytes left in the source. -/
structure DecEnd where
  status : StatusCode
  result : Option Nat
  acc : Nat
  first : Bool
  left : List Byte
deriving DecidableEq, Repr

/-- `Terminate()` on a value, as the DEC loop ends (40_decoder.md R111, R112). -/
def decFinish (w : Width) (acc : Nat) (left : List Byte) : DecEnd :=
  if w.fits acc then ⟨.ok, some acc, acc, false, left⟩ else ⟨.overflow, none, acc, false, left⟩

/-- The loop of DEC over the source's bytes (40_decoder.md R112); `fin` is whether the source answers END after
them. `none`: the source gives no answer and DEC holds (60_exceptions.md R181). -/
def decLoop (w : Width) (fin : Bool) : Nat → Bool → List Byte → Option DecEnd
  | acc, first, [] => if fin then some ⟨.unexpectedEnd, none, acc, first, []⟩ else none
  | acc, first, b :: rest =>
    if first then
      match scan (wirePayload b) with
      | none => some ⟨.ok, some 0, acc, first, rest⟩
      | some k =>
        if wireMore b then decLoop w fin (accum acc b k) false rest
        else some (decFinish w (accum acc b k) rest)
    else if wireMore b then decLoop w fin (accum acc b fullOffset) false rest
    else some (decFinish w (accum acc b fullOffset) rest)

/-- Plain big-endian base-128 accumulation: `ACC <- ACC * 128 + b[6:0]` per byte (40_decoder.md R114). -/
def plainValue (acc : Nat) : List Byte → Nat
  | [] => acc
  | b :: rest => plainValue (acc * 128 + b.toNat % 128) rest

/-- The last byte has C = 0 and every earlier byte C = 1 (30_encoding.md R71, 45_encoder.md R142). -/
def marked : List Byte → Bool
  | [] => false
  | [b] => !wireMore b
  | b :: rest => wireMore b && marked rest

/-- One whole encoded value: a single byte with a zero payload, or a non-zero first payload and a run up to and
including the first byte with C = 0 (30_encoding.md R75). -/
def wholeValue : List Byte → Bool
  | [] => false
  | b :: rest => if wirePayload b = 0#7 then rest.isEmpty else marked (b :: rest)

/-- A truncated value: nothing, or a non-zero first payload and only bytes with C = 1 (30_encoding.md R75). -/
def cutValue : List Byte → Bool
  | [] => true
  | b :: rest => decide (wirePayload b ≠ 0#7) && (b :: rest).all wireMore

end Sys2Proof.Machine
end

