-- ==== Sys2Proof/Safety.lean ====
section
/-! DEFINITION. What counts as a safe run: the invariant of the block's registers, and the outcomes that are no
stop. -/

namespace Sys2Proof.Machine

/-- The invariant of the block (the rule of each clause is cited at it). It speaks of states a reset can lead to;
`step` keeps it from every state that has it. -/
structure State.Inv (s : State) : Prop where
  /-- W ≥ 1 or infinity (00_scope.md R6). -/
  width_legal : s.width.wf = true
  /-- OBUF "is empty whenever PHASE != ENC_PUSH" and holds a byte in ENC_PUSH (10_state.md R25, 45_encoder.md R143). -/
  obuf_phase : s.phase = .encPush ↔ s.obuf ≠ []
  /-- OBUF's capacity is NMAX (10_state.md R25, 00_scope.md R7). -/
  obuf_capacity : s.width.holds s.obuf.length = true
  /-- What is still to be pushed ends in a byte with C = 0, the others have C = 1 (45_encoder.md R142). -/
  obuf_marked : s.phase = .encPush → marked s.obuf = true
  /-- RESULT holds a value exactly when RESULT_VALID = 1 (10_state.md R27). -/
  result_valid : s.resultValid = s.result.isSome
  /-- RESULT < 2^W (40_decoder.md R111). -/
  result_fits : ∀ v, s.result = some v → s.width.fits v = true
  /-- Codes 6 and 7 are never written (10_state.md R26). -/
  status_legal : s.status.toNat ≤ 5
  /-- STATUS shows NONE and RESULT_VALID is 0 while BUSY = 1 (70_reset_and_hazards.md R206). -/
  busy_quiet : s.busy = true → s.status = .none ∧ s.resultValid = false
  /-- A valid RESULT comes from a DEC that ended with OK (10_state.md R27). -/
  valid_ok : s.resultValid = true → s.status = .ok
  /-- ACC is 0 while the first byte is awaited (40_decoder.md R109: "ACC was 0"). -/
  first_zero : s.phase = .decPull → s.first = true → s.acc = 0
  /-- ACC is not 0 once a first byte with a non-zero payload has been taken (40_decoder.md R109, R105). -/
  later_pos : s.phase = .decPull → s.first = false → 0 < s.acc

/-- The two states have the same block registers, the tuple of 10_state.md R20. -/
structure State.SameBlock (s t : State) : Prop where
  phase : t.phase = s.phase
  acc : t.acc = s.acc
  first : t.first = s.first
  obuf : t.obuf = s.obuf
  status : t.status = s.status
  result : t.result = s.result
  resultValid : t.resultValid = s.resultValid

/-- The two states have the same ports and the same W: command port, source, sink and reset input. -/
structure State.SamePorts (s t : State) : Prop where
  width : t.width = s.width
  resetIn : t.resetIn = s.resetIn
  cmds : t.cmds = s.cmds
  src : t.src = s.src
  srcEnd : t.srcEnd = s.srcEnd
  snk : t.snk = s.snk
  snkRoom : t.snkRoom = s.snkRoom

/-- Every command the host holds can be carried by the port (30_encoding.md R78). -/
def State.offersFit (s : State) : Bool := s.cmds.all fun c => c.wf s.width

/-- The step goes on: neither a fault nor a refusal. -/
def safeStep (s : State) : Prop := ∃ t, step s = .next t

end Sys2Proof.Machine
end

