-- ==== Sys2Proof/Certificates/Slice0/Obligations.lean ====
section
/-! DEFINITION. The statements for the provers, from the numbered rules of spec/. Each docstring names the rule it
formalises; where a clause is the model's own choice it says so and names the log entry. -/

namespace Sys2Proof.Claims

open Sys2Proof.Machine

/-- The block's registers but RESULT: PHASE, ACC, FIRST, OBUF, STATUS, RESULT_VALID (10_state.md R20). -/
structure Shows (t : State) (phase : Phase) (acc : Nat) (first : Bool) (obuf : List Byte) (status : StatusCode)
    (resultValid : Bool) : Prop where
  phase : t.phase = phase
  acc : t.acc = acc
  first : t.first = first
  obuf : t.obuf = obuf
  status : t.status = status
  resultValid : t.resultValid = resultValid

/-- An instruction that ends a value: with the new ACC `v`, it completes with OK and RESULT = `v` where `v` fits in
W bits, and raises OVERFLOW with no RESULT where it does not; the ports stay as they are (40_decoder.md R111). -/
def EndsValue (i : Instr) (v : Nat) (s : State) : Prop :=
  (s.width.fits v = true →
    exec i s = .next { s with first := false, acc := v, result := some v, resultValid := true, status := 1#3,
                              phase := .idle }) ∧
  (s.width.fits v = false →
    ∃ t, exec i s = .next t ∧ Shows t .idle v false [] 4#3 false ∧ s.SamePorts t)

/-- An instruction that continues a value: only FIRST and ACC change, and the next step pulls again
(40_decoder.md R109, R110). -/
def Continues (i : Instr) (v : Nat) (s : State) : Prop :=
  exec i s = .next { s with first := false, acc := v }

/-- A block that has accepted a DEC and pulled nothing yet: DEC_PULL, FIRST = 1, ACC = 0, STATUS NONE, no reset
asserted (40_decoder.md R106). -/
structure AtFirstByte (s : State) : Prop where
  resetIn : s.resetIn = false
  phase : s.phase = .decPull
  first : s.first = true
  acc : s.acc = 0
  status : s.status = 0#3
  obuf : s.obuf = []
  resultValid : s.resultValid = false

/-- An idle block with no reset asserted, whose command port offers `c` first and then `rest`. -/
structure Offers (s : State) (c : Command) (rest : List Command) : Prop where
  resetIn : s.resetIn = false
  phase : s.phase = .idle
  obuf : s.obuf = []
  cmds : s.cmds = c :: rest

/-- `ENC` and its aliases (30_encoding.md R82). -/
def encNames : List (List Char) :=
  [['E', 'N', 'C'], ['E', 'N', 'C', 'O', 'D', 'E'], ['W', 'R', 'I', 'T', 'E']]

/-- `DEC` and its aliases (30_encoding.md R82). -/
def decNames : List (List Char) :=
  [['D', 'E', 'C'], ['D', 'E', 'C', 'O', 'D', 'E'], ['R', 'E', 'A', 'D']]

/-- The number that digits spell, the most significant first. -/
def digitsValue {base : Nat} (ds : List (Fin base)) : Nat := ds.foldl (fun a d => a * base + d.val) 0

/-- Digits as characters, 0-9 and a-f. -/
def digitChars {base : Nat} (ds : List (Fin base)) : List Char := ds.map fun d => Nat.digitChar d.val

/-- The run of `n` steps from `s` ends in `t`. -/
abbrev Runs (n : Nat) (s t : State) : Prop := core.run n s = .next t

end Sys2Proof.Claims

open Sys2Proof Sys2Proof.Machine Sys2Proof.Claims

/-! ### Reset -/

/-- 10_state.md R31: the block's elements right after reset. -/
def Obligations.ResetStateHoldsTheResetValues : Prop :=
  State.reset.phase = .idle ∧ State.reset.acc = 0 ∧ State.reset.first = true ∧ State.reset.obuf = [] ∧
  State.reset.status = 0#3 ∧ State.reset.result = none ∧ State.reset.resultValid = false

/-- 70_reset_and_hazards.md R200: reset is a step enabled in every state, and sets every element to its reset value, the
one it has at power-on. That both streams, the held commands and W stay as they are is R201's first two items. -/
def Obligations.ResetStepSetsEveryElement : Prop :=
  ∀ s : State, s.resetIn = true → ∃ t, step s = .next t ∧
    Shows t .idle 0 true [] 0#3 false ∧ t.result = none ∧ State.reset.SameBlock t ∧
    t.width = s.width ∧ t.cmds = s.cmds ∧ t.src = s.src ∧ t.srcEnd = s.srcEnd ∧ t.snk = s.snk ∧
    t.snkRoom = s.snkRoom

/-- 70_reset_and_hazards.md R201: a reset aborts the running operation. What was pulled stays consumed, what was
pushed stays written, and nothing of OBUF is pushed later, however long the block runs with no new command. -/
def Obligations.ResetAbortsAndKeepsTheStreams : Prop :=
  ∀ (s : State) (n : Nat), s.resetIn = true → s.cmds = [] → ∃ t, Runs (n + 1) s t ∧
    t.src = s.src ∧ t.snk = s.snk ∧ t.obuf = [] ∧ t.acc = 0 ∧ t.status = 0#3 ∧ t.phase = .idle

/-- After reset the block accepts a command at once (70_reset_and_hazards.md R202, first sentence). That it is the very
next step after the reset step that takes the command is the model's choice (log 7: the reset step takes the assertion
back, so one assertion is one reset step). -/
def Obligations.AfterResetACommandIsAccepted : Prop :=
  ∀ (s : State) (c : Command) (rest : List Command), s.resetIn = true → s.cmds = c :: rest →
    c.wf s.width = true → ∃ t u, step s = .next t ∧ t.phase = .idle ∧ step t = .next u ∧ u.cmds = rest

/-! ### Commands -/

/-- 40_decoder.md R106: DEC acceptance; whatever ACC, FIRST, STATUS and RESULT held before, and whatever operand stands
beside the word 0x02. Nothing is pulled. It is enabled only when PHASE = IDLE. -/
def Obligations.DecAcceptanceInitialises : Prop :=
  (∀ s : State, s.phase = .idle → ∃ t, exec .dec s = .next t ∧
    Shows t .decPull 0 true s.obuf 0#3 false ∧ s.SamePorts t) ∧
  (∀ (w : Width) (first vsign : Bool) (vmag : Nat), decode w first (.cmd ⟨0x02#8, vsign, vmag⟩) = .ok .dec) ∧
  (∀ s t : State, s.phase ≠ .idle → exec .dec s = .next t → s.SameBlock t)

/-- 45_encoder.md R140, 60_exceptions.md R173: ENC acceptance. For v ≥ 0, a sign bit with magnitude 0 included, OBUF is
filled and nothing is pushed; v < 0 raises INVALID_ARGUMENT, and no byte is pushed. ENC is enabled only when
PHASE = IDLE. -/
def Obligations.EncAcceptanceFillsTheBuffer : Prop :=
  (∀ (s : State) (vsign : Bool) (vmag : Nat), s.phase = .idle → s.width.fits vmag = true →
    (vsign = false ∨ vmag = 0) → ∃ t, exec (.enc vsign vmag) s = .next t ∧
    Shows t .encPush s.acc s.first (encBytes vmag) 0#3 false ∧ s.SamePorts t) ∧
  (∀ (s : State) (vmag : Nat), s.phase = .idle → s.width.fits vmag = true → 0 < vmag →
    ∃ t, exec (.enc true vmag) s = .next t ∧
    Shows t .idle s.acc s.first [] 3#3 false ∧ s.SamePorts t) ∧
  (∀ (s t : State) (vsign : Bool) (vmag : Nat), s.phase ≠ .idle → exec (.enc vsign vmag) s = .next t →
    s.SameBlock t)

/-- 30_encoding.md R79: a reserved word completes at once with ILLEGAL_COMMAND and no I/O; its operand is ignored. That
OBUF is empty in IDLE is an invariant (10_state.md R25, `StepKeepsInv`). -/
def Obligations.ReservedWordIsIllegalCommand : Prop :=
  ∀ (s : State) (word : Byte), word ≠ 0x01#8 → word ≠ 0x02#8 →
    (s.phase = .idle → s.obuf = [] → ∃ t, exec (.reserved word) s = .next t ∧
      Shows t .idle s.acc s.first s.obuf 5#3 false ∧ s.SamePorts t) ∧
    (∀ (w : Width) (first vsign : Bool) (vmag : Nat),
      decode w first (.cmd ⟨word, vsign, vmag⟩) = .ok (.reserved word)) ∧
    (∀ t, s.phase ≠ .idle → exec (.reserved word) s = .next t → s.SameBlock t)

/-- The operand of a command, after 30_encoding.md R78: its value, the refusal of a magnitude of 2^W or more, and DEC's
operand ignored. That the refusal comes in the step in which the idle block would take the command is the model's choice
(log 9); R78 says only that a model refuses it. -/
def Obligations.OperandAssembly : Prop :=
  (∀ m : Nat, operandValue false m = (m : Int) ∧ operandValue true m = -(m : Int)) ∧
  operandValue true 0 = 0 ∧
  (∀ (s : State) (vsign : Bool) (vmag : Nat) (rest : List Command), s.resetIn = false → s.phase = .idle →
    s.cmds = ⟨0x01#8, vsign, vmag⟩ :: rest → s.width.fits vmag = false → step s = .refused .operandTooWide) ∧
  (∀ (w : Width) (first vsign : Bool) (vmag : Nat), decode w first (.cmd ⟨0x02#8, vsign, vmag⟩) = .ok .dec)

/-- 10_state.md R27: whenever a command acceptance or an exception clears RESULT_VALID, RESULT holds no value and a read
of it is a host fault. That the field itself is emptied is the model's reading (DEDUCED, log 3). -/
def Obligations.ClearedResultHoldsNoValue : Prop :=
  ∀ (s t : State) (i : Instr), exec i s = .next t → t.resultValid = false → s.resultValid = true →
    t.result = none ∧ hostRead .result t = .error .resultHoldsNoValue

/-- 70_reset_and_hazards.md R205, first sentence, over every step: while BUSY = 1 no step takes a command. -/
def Obligations.BusyBlockTakesNoCommand : Prop :=
  ∀ s t : State, s.busy = true → step s = .next t → t.cmds = s.cmds

/-! ### Decoder byte classes -/

/-- 40_decoder.md R108: a first byte with a zero payload ends the DEC with RESULT 0, whatever its bit 7. -/
def Obligations.ZeroFirstByteEndsWithZero : Prop :=
  (∀ (s : State) (c : Bool), s.phase = .decPull → s.first = true →
    exec (.decFZero c) s = .next { s with result := some 0, resultValid := true, status := 1#3, phase := .idle }) ∧
  ∀ (w : Width) (b : Byte), b &&& 0x7F#8 = 0x00#8 →
    decode w true (.answer (.byte b)) = .ok (.decFZero (wireMore b))

/-- 40_decoder.md R109: each first-byte class with offset k takes k+1 bits, the set bit k and the k bits below it.
LAST terminates, MORE goes on. Every byte with a non-zero payload is of the class whose offset SCAN gives. -/
def Obligations.FirstByteClassesTakeTheirBits : Prop :=
  ∀ s : State, s.phase = .decPull → s.first = true →
    (∀ p : BitVec 6, EndsValue (.decFK6Last p) (s.acc * 128 + (64 + p.toNat)) s ∧
      Continues (.decFK6More p) (s.acc * 128 + (64 + p.toNat)) s) ∧
    (∀ p : BitVec 5, EndsValue (.decFK5Last p) (s.acc * 64 + (32 + p.toNat)) s ∧
      Continues (.decFK5More p) (s.acc * 64 + (32 + p.toNat)) s) ∧
    (∀ p : BitVec 4, EndsValue (.decFK4Last p) (s.acc * 32 + (16 + p.toNat)) s ∧
      Continues (.decFK4More p) (s.acc * 32 + (16 + p.toNat)) s) ∧
    (∀ p : BitVec 3, EndsValue (.decFK3Last p) (s.acc * 16 + (8 + p.toNat)) s ∧
      Continues (.decFK3More p) (s.acc * 16 + (8 + p.toNat)) s) ∧
    (∀ p : BitVec 2, EndsValue (.decFK2Last p) (s.acc * 8 + (4 + p.toNat)) s ∧
      Continues (.decFK2More p) (s.acc * 8 + (4 + p.toNat)) s) ∧
    (∀ p : BitVec 1, EndsValue (.decFK1Last p) (s.acc * 4 + (2 + p.toNat)) s ∧
      Continues (.decFK1More p) (s.acc * 4 + (2 + p.toNat)) s) ∧
    EndsValue .decFK0Last (s.acc * 2 + 1) s ∧ Continues .decFK0More (s.acc * 2 + 1) s ∧
    (∀ (w : Width) (b : Byte), wirePayload b ≠ 0#7 → ∃ k i, scan (wirePayload b) = some k ∧
      decode w true (.answer (.byte b)) = .ok i ∧
      (wireMore b = false → EndsValue i (accum s.acc b k) s) ∧
      (wireMore b = true → Continues i (accum s.acc b k) s))

/-- 40_decoder.md R110: every later byte gives seven bits; a zero payload is not special. -/
def Obligations.LaterBytesTakeSevenBits : Prop :=
  (∀ (s : State) (p : Payload), s.phase = .decPull → s.first = false →
    EndsValue (.decNLast p) (s.acc * 128 + p.toNat) s ∧ Continues (.decNMore p) (s.acc * 128 + p.toNat) s) ∧
  ∀ (w : Width) (b : Byte), decode w false (.answer (.byte b)) =
    .ok (if wireMore b then .decNMore (wirePayload b) else .decNLast (wirePayload b))

/-- 60_exceptions.md R177 for the class DEC.END (40_decoder.md R107): END raises UNEXPECTED_END_OF_INPUT and keeps
ACC and FIRST. -/
def Obligations.EndRaisesUnexpectedEnd : Prop :=
  ∀ s : State, s.phase = .decPull → ∃ t, exec .decEnd s = .next t ∧
    Shows t .idle s.acc s.first [] 2#3 false ∧ s.SamePorts t

/-- 40_decoder.md R107: a DecByte step pulls one answer; END raises UNEXPECTED_END_OF_INPUT, and a byte is handled by
FIRST and SCAN as R108 to R110 say (`State.decByte`), which the machine reaches through the byte classes. That no such
step is taken elsewhere is `StepIsOneOfTheFour`. -/
def Obligations.DecByteFollowsScan : Prop :=
  ∀ s : State, s.resetIn = false → s.phase = .decPull →
    (∀ (b : Byte) (rest : List Byte), s.src = b :: rest →
      step s = .next (({ s with src := rest } : State).decByte b)) ∧
    (s.src = [] → s.srcEnd = true → ∃ t, step s = .next t ∧
      Shows t .idle s.acc s.first [] 2#3 false ∧ s.SamePorts t)

/-! ### Scanner and accumulator -/

/-- 40_decoder.md R101 and R102: the whole truth table of SCAN, and a scan from bit 0 upward that keeps the last set
bit gives the same result. -/
def Obligations.ScanTruthTable : Prop :=
  scan 0#7 = none ∧
  (∀ (p : Payload) (k : Nat), k < 7 → 2 ^ k ≤ p.toNat → p.toNat < 2 ^ (k + 1) → scan p = some k) ∧
  ∀ p : Payload, scanUp p = scan p

/-- 40_decoder.md R104: ACCUM is exact arithmetic. -/
def Obligations.AccumIsExact : Prop :=
  ∀ (acc : Nat) (b : Byte) (k : Nat), accum acc b k = acc * 2 ^ (k + 1) + b.toNat % 2 ^ (k + 1)

/-- After 40_decoder.md R105: ACCUM is monotone, ACC ≥ 2^W at the end exactly when it was so after some ACCUM, and W bits
with a sticky bit answer alike: the sticky bit is that test. That the W bits are ACC's low W bits also once the sticky
bit is set is the model's choice (log 14). -/
def Obligations.StickyAccumulatorIsEquivalent : Prop :=
  (∀ (acc : Nat) (b : Byte) (k : Nat), acc ≤ accum acc b k) ∧
  ∀ (w : Nat) (bs : List (Byte × Nat)), 1 ≤ w →
    let acc := bs.foldl (fun a x => accum a x.1 x.2) 0
    let sticky := bs.foldl (fun a x => stickyAccum w a x.1 x.2) ⟨0, false⟩
    sticky.sticky = decide (2 ^ w ≤ acc) ∧ sticky.low = acc % 2 ^ w ∧
    (2 ^ w ≤ acc ↔ ∃ n, 2 ^ w ≤ (bs.take n).foldl (fun a x => accum a x.1 x.2) 0)

/-! ### Encoder -/

/-- 45_encoder.md R145: zero is one byte. -/
def Obligations.ZeroEncodesAsOneByte : Prop :=
  encBytes 0 = [0x00#8] ∧ ∀ v : Nat, encBytes v = [0x00#8] → v = 0

/-- 45_encoder.md R144: the closed form, n the least n ≥ 1 with v < 2^(7n). -/
def Obligations.EncBytesClosedForm : Prop :=
  ∀ v n : Nat, 1 ≤ n → v < 2 ^ (7 * n) → (∀ m, 1 ≤ m → v < 2 ^ (7 * m) → n ≤ m) →
    n = (if v = 0 then 1 else (Nat.size v + 6) / 7) ∧ (encBytes v).length = n ∧
    ∀ i, i < n → (encBytes v)[i]? =
      some (BitVec.ofNat 8 ((if i < n - 1 then 0x80 else 0x00) ||| ((v >>> (7 * (n - 1 - i))) &&& 0x7F)))

/-- 45_encoder.md R142: the last byte has bit 7 = 0 and is the least-significant group; every earlier byte has
bit 7 = 1. -/
def Obligations.EncBytesAreMarked : Prop :=
  ∀ v : Nat, marked (encBytes v) = true ∧ (encBytes v).getLast? = some (BitVec.ofNat 8 (v % 128))

/-- 45_encoder.md R146: no superfluous leading group. -/
def Obligations.EncBytesAreMinimal : Prop :=
  ∀ v : Nat, 0 < v → ∃ b rest, encBytes v = b :: rest ∧
    (wirePayload b).toNat = v >>> (7 * rest.length) ∧ wirePayload b ≠ 0#7

/-- 00_scope.md R7: NMAX bounds the bytes of one ENC for finite W, and is reached by 2^W - 1; OBUF's capacity at an
acceptance. -/
def Obligations.EncNeverExceedsNmax : Prop :=
  ∀ w : Nat, 1 ≤ w →
    (∀ v, v < 2 ^ w → (encBytes v).length ≤ max 1 ((w + 6) / 7)) ∧
    (encBytes (2 ^ w - 1)).length = max 1 ((w + 6) / 7)

/-- EncPush in a state that enables it, after 45_encoder.md R143. The clause on `snkRoom` is no part of R143: it is the
model's choice how to write down what the host's sink still accepts (log 6). -/
def Obligations.EncPushMovesTheHead : Prop :=
  ∀ (s : State) (b : Byte) (rest : List Byte), s.resetIn = false → s.phase = .encPush → s.obuf = b :: rest →
    s.sinkAccepts = true →
    (rest ≠ [] → step s = .next { s with snk := s.snk ++ [b], snkRoom := s.snkRoom.less, obuf := rest }) ∧
    (rest = [] → step s = .next { s with snk := s.snk ++ [b], snkRoom := s.snkRoom.less, obuf := [],
                                         status := 1#3, phase := .idle })

/-! ### The step -/

/-- A step runs the decoded instruction (10_state.md R34, 30_encoding.md R81): a command is taken off the command port
of an idle block, a byte off the source of a pulling block; END removes nothing. -/
def Obligations.StepRunsTheDecodedInstruction : Prop :=
  (∀ (s : State) (c : Command) (rest : List Command) (i : Instr), s.resetIn = false → s.phase = .idle →
    s.cmds = c :: rest → decode s.width s.first (.cmd c) = .ok i → step s = exec i { s with cmds := rest }) ∧
  (∀ (s : State) (b : Byte) (rest : List Byte) (i : Instr), s.resetIn = false → s.phase = .decPull →
    s.src = b :: rest → decode s.width s.first (.answer (.byte b)) = .ok i →
    step s = exec i { s with src := rest }) ∧
  (∀ s : State, s.resetIn = false → s.phase = .decPull → s.src = [] → s.srcEnd = true → step s = exec .decEnd s)

/-- 60_exceptions.md R181: the two waits. All state survives; the awaited answer or a reset ends a wait. -/
def Obligations.WaitsKeepAllState : Prop :=
  (∀ s : State, s.resetIn = false → s.phase = .decPull → s.src = [] → s.srcEnd = false → step s = .next s) ∧
  (∀ s : State, s.resetIn = false → s.phase = .encPush → s.sinkAccepts = false → step s = .next s) ∧
  (∀ s : State, s.phase = .decPull → (s.src ≠ [] ∨ s.srcEnd = true) → ∃ t, step s = .next t ∧ t ≠ s) ∧
  (∀ s : State, s.phase = .encPush → s.obuf ≠ [] → s.sinkAccepts = true → ∃ t, step s = .next t ∧ t ≠ s) ∧
  (∀ s : State, s.busy = true → s.resetIn = true → ∃ t, step s = .next t ∧ t.busy = false)

/-- 10_state.md R34: the block changes state only by Accept, DecByte, EncPush and Reset, each when it is enabled and with
the effect its rules give (`exec` of the decoded command, `State.decByte`, `State.raise`, `State.encPush`,
`State.resetBlock`), and each moves only its own port. Where none is enabled the block holds. -/
def Obligations.StepIsOneOfTheFour : Prop :=
  ∀ s t : State, step s = .next t →
    (s.resetIn = true ∧ t = s.resetBlock) ∨
    (s.resetIn = false ∧ s.phase = .idle ∧ (∃ c i, s.cmds = c :: t.cmds ∧
      decode s.width s.first (.cmd c) = .ok i ∧ exec i { s with cmds := t.cmds } = .next t) ∧
      t.src = s.src ∧ t.srcEnd = s.srcEnd ∧ t.snk = s.snk ∧ t.snkRoom = s.snkRoom) ∨
    (s.resetIn = false ∧ s.phase = .decPull ∧
      ((∃ b, s.src = b :: t.src ∧ t = ({ s with src := t.src } : State).decByte b) ∨
        (s.src = [] ∧ s.srcEnd = true ∧ t = s.raise .unexpectedEnd)) ∧
      t.srcEnd = s.srcEnd ∧ t.cmds = s.cmds ∧ t.snk = s.snk ∧ t.snkRoom = s.snkRoom) ∨
    (s.resetIn = false ∧ s.phase = .encPush ∧ s.sinkAccepts = true ∧ t = s.encPush ∧
      (∃ b, s.obuf = b :: t.obuf ∧ t.snk = s.snk ++ [b]) ∧
      t.cmds = s.cmds ∧ t.src = s.src ∧ t.srcEnd = s.srcEnd) ∨
    (s.resetIn = false ∧ t = s ∧ ((s.phase = .idle ∧ s.cmds = []) ∨
      (s.phase = .decPull ∧ s.src = [] ∧ s.srcEnd = false) ∨
      (s.phase = .encPush ∧ (s.obuf = [] ∨ s.sinkAccepts = false))))

/-- No step stops the machine with a fault, and the one refusal is an ENC command whose magnitude the port cannot
carry (30_encoding.md R78): where every offered command can be carried, every step goes on. -/
def Obligations.OnlyAnOversizeOperandStopsAStep : Prop :=
  (∀ (s : State) (f : Fault), step s ≠ .fault f) ∧
  (∀ (s : State) (r : Refusal), step s = .refused r → r = .operandTooWide ∧ s.phase = .idle ∧
    ∃ vsign vmag rest, s.cmds = ⟨0x01#8, vsign, vmag⟩ :: rest ∧ s.width.fits vmag = false) ∧
  (∀ s : State, s.offersFit = true → safeStep s)

/-- 60_exceptions.md R171: each exception has its one cause, whichever state the step starts from. -/
def Obligations.EachExceptionHasItsCause : Prop :=
  ∀ s t : State, s.resetIn = false → step s = .next t → t.status ≠ s.status →
    (t.status = 2#3 → s.phase = .decPull ∧ s.src = [] ∧ s.srcEnd = true) ∧
    (t.status = 3#3 → s.phase = .idle ∧ ∃ vmag rest, s.cmds = ⟨0x01#8, true, vmag⟩ :: rest ∧ 0 < vmag) ∧
    (t.status = 4#3 → s.phase = .decPull ∧ (∃ b, s.src = b :: t.src ∧ wireMore b = false) ∧
      ∃ w, s.width = .finite w ∧ 2 ^ w ≤ t.acc) ∧
    (t.status = 5#3 → s.phase = .idle ∧ ∃ c rest, s.cmds = c :: rest ∧ c.word ≠ 0x01#8 ∧ c.word ≠ 0x02#8) ∧
    t.status.toNat ≤ 5 ∧
    (2#3 ≤ t.status → t.phase = .idle ∧ t.resultValid = false ∧ t.obuf = [] ∧ t.snk = s.snk)

/-- 10_state.md R23, R24: ENC and the reserved words neither read nor write ACC and FIRST, in any of their steps. -/
def Obligations.OnlyDecWritesAccAndFirst : Prop :=
  ∀ s t : State, s.resetIn = false → step s = .next t → (t.acc ≠ s.acc ∨ t.first ≠ s.first) →
    s.phase = .decPull ∨ (s.phase = .idle ∧ t.phase = .decPull)

/-- 10_state.md R20, the "written by" column, for RESULT and RESULT_VALID: a step that gives RESULT a new value, or that
sets RESULT_VALID, ends a DEC with OK and leaves a value in RESULT and RESULT_VALID = 1. -/
def Obligations.OnlyASuccessfulDecWritesResult : Prop :=
  ∀ s t : State, step s = .next t →
    ((t.result.isSome = true ∧ t.result ≠ s.result) ∨ (t.resultValid = true ∧ s.resultValid = false)) →
    s.phase = .decPull ∧ t.phase = .idle ∧ t.status = 1#3 ∧ t.resultValid = true ∧ t.result.isSome = true

/-- 20_memory.md R51, R52, R57, R58: a step pulls at most one byte, and only in DEC_PULL; it pushes at most one byte,
OBUF's head, and only in ENC_PUSH; a byte once accepted is not withdrawn. -/
def Obligations.OnlyDecPullsAndOnlyEncPushes : Prop :=
  ∀ s t : State, step s = .next t →
    (t.src ≠ s.src → s.phase = .decPull ∧ s.resetIn = false ∧ ∃ b, s.src = b :: t.src) ∧
    (t.snk ≠ s.snk → s.phase = .encPush ∧ s.resetIn = false ∧ ∃ b, s.obuf = b :: t.obuf ∧ t.snk = s.snk ++ [b])

/-- The frame of every instruction: a next state of `exec` has the same W, source, sink and reset input, and the
instruction moves a port only where it was not taken, when the block's registers are unchanged (10_state.md R34; the
ports of an instruction not taken are the model's choice, log 5). -/
def Obligations.InstructionsLeaveThePortsAlone : Prop :=
  ∀ (i : Instr) (s t : State), exec i s = .next t →
    t.width = s.width ∧ t.resetIn = s.resetIn ∧ t.srcEnd = s.srcEnd ∧ t.snk = s.snk ∧ t.snkRoom = s.snkRoom ∧
    ((t.cmds = s.cmds ∧ t.src = s.src) ∨ s.SameBlock t)

/-- 00_scope.md R6, 70_reset_and_hazards.md R203: W cannot change while the block runs. -/
def Obligations.NoRunChangesW : Prop :=
  ∀ (n : Nat) (s t : State), Runs n s t → t.width = s.width

/-! ### The invariant -/

/-- The invariant holds right after reset (10_state.md R31). -/
def Obligations.InvHoldsAfterReset : Prop := State.reset.Inv

/-- Every step keeps the invariant: OBUF's phase, capacity and marking (10_state.md R25), RESULT and RESULT_VALID
(R27), STATUS never 6 or 7 (R26) and NONE while BUSY (70_reset_and_hazards.md R206), ACC and FIRST within a DEC
(40_decoder.md R109). -/
def Obligations.StepKeepsInv : Prop :=
  ∀ s t : State, s.Inv → step s = .next t → t.Inv

/-- 20_memory.md R61 item 4: STATUS, RESULT and RESULT_VALID reach their final values in the step in which BUSY
returns to 0, and do not move before it. -/
def Obligations.ResultsAppearWhenBusyFalls : Prop :=
  ∀ s t : State, s.Inv → s.resetIn = false → s.busy = true → step s = .next t →
    (t.busy = true ∧ t.status = 0#3 ∧ t.resultValid = false ∧ t.result = none) ∨
    (t.busy = false ∧ (t.status = 1#3 ∨ t.status = 2#3 ∨ t.status = 4#3) ∧
      (t.resultValid = true ↔ t.status = 1#3 ∧ s.phase = .decPull))

/-! ### Whole operations -/

/-- 45_encoder.md R148: ENC as a whole. With v ≥ 0 and a sink that accepts, the bytes of ENCBYTES(v) are pushed in
order, one a step, BUSY is 1 until the last, and STATUS is OK after it; with v < 0, nothing is pushed. -/
def Obligations.EncRunPushesTheEncoding : Prop :=
  (∀ (s : State) (vsign : Bool) (vmag : Nat) (rest : List Command), Offers s ⟨0x01#8, vsign, vmag⟩ rest →
    s.width.fits vmag = true → (vsign = false ∨ vmag = 0) → s.snkRoom = .always →
    ∀ j, j ≤ (encBytes vmag).length → ∃ t, Runs (1 + j) s t ∧
      t.snk = s.snk ++ (encBytes vmag).take j ∧ t.obuf = (encBytes vmag).drop j ∧
      (t.busy = true ↔ j < (encBytes vmag).length) ∧
      t.status = (if j < (encBytes vmag).length then 0#3 else 1#3) ∧ t.resultValid = false ∧
      t.acc = s.acc ∧ t.first = s.first ∧ t.cmds = rest ∧ t.src = s.src) ∧
  (∀ (s : State) (vmag : Nat) (rest : List Command), Offers s ⟨0x01#8, true, vmag⟩ rest →
    s.width.fits vmag = true → 0 < vmag → ∃ t, Runs 1 s t ∧
      Shows t .idle s.acc s.first [] 3#3 false ∧ t.snk = s.snk ∧ t.cmds = rest ∧ t.src = s.src)

/-- 40_decoder.md R112: DEC as a whole gives what the rule's loop gives (`decLoop`, with SCAN and ACCUM), in exactly one
step for the acceptance and one per source answer it pulls, the bytes and, where the loop ends by it, END; it is in
DEC_PULL until the last of them. Where the loop waits for an answer for ever, so does the block. -/
def Obligations.DecRunFollowsTheLoop : Prop :=
  ∀ (s : State) (vsign : Bool) (vmag : Nat) (rest : List Command), Offers s ⟨0x02#8, vsign, vmag⟩ rest →
    (∀ d, decLoop s.width s.srcEnd 0 true s.src = some d →
      let n := 1 + (s.src.length - d.left.length) + (if d.status = 2#3 then 1 else 0)
      (∀ j, 1 ≤ j → j < n → ∃ u, Runs j s u ∧ u.phase = .decPull) ∧
      ∃ t, Runs n s t ∧ Shows t .idle d.acc d.first [] d.status d.result.isSome ∧ t.result = d.result ∧
        t.src = d.left ∧ t.cmds = rest ∧ t.snk = s.snk) ∧
    (decLoop s.width s.srcEnd 0 true s.src = none → ∀ n, ∃ t, Runs (n + 1) s t ∧ t.phase = .decPull)

/-- 45_encoder.md R149: the round trip, for every v below 2^W, 0 included. -/
def Obligations.DecodingAnEncodingGivesTheValue : Prop :=
  ∀ (s : State) (vsign : Bool) (vmag : Nat) (rest : List Command) (v : Nat) (tail : List Byte),
    Offers s ⟨0x02#8, vsign, vmag⟩ rest → s.width.fits v = true → s.src = encBytes v ++ tail →
    ∃ t, Runs (1 + (encBytes v).length) s t ∧
      t.phase = .idle ∧ t.status = 1#3 ∧ t.resultValid = true ∧ t.result = some v ∧ t.src = tail ∧ t.cmds = rest

/-- 40_decoder.md R113: the bytes one DEC pulls, in each of the three cases, one a step, and none after the one that
ends the value. -/
def Obligations.DecConsumesExactlyOneValue : Prop :=
  (∀ (s : State) (p rest : List Byte), AtFirstByte s → s.src = p ++ rest → wholeValue p = true →
    (∀ j, j < p.length → ∃ t, Runs j s t ∧ t.phase = .decPull ∧ t.src = p.drop j ++ rest) ∧
    ∃ t, Runs p.length s t ∧ t.phase = .idle ∧ t.src = rest ∧ t.cmds = s.cmds) ∧
  (∀ s : State, AtFirstByte s → cutValue s.src = true → s.srcEnd = true →
    ∃ t, Runs (s.src.length + 1) s t ∧ t.phase = .idle ∧ t.src = [] ∧ t.status = 2#3)

/-- 40_decoder.md R114: for a non-zero first payload DEC gives the result of plain big-endian base-128 decoding, with
OVERFLOW where that value is 2^W or more, and UNEXPECTED_END_OF_INPUT where the source ends first. -/
def Obligations.DecodingIsPlainBase128 : Prop :=
  (∀ (s : State) (b : Byte) (p rest : List Byte), AtFirstByte s → s.src = b :: p ++ rest → wirePayload b ≠ 0#7 →
    marked (b :: p) = true → ∃ t, Runs (b :: p).length s t ∧ t.phase = .idle ∧ t.src = rest ∧
      t.acc = plainValue 0 (b :: p) ∧
      (s.width.fits (plainValue 0 (b :: p)) = true →
        t.status = 1#3 ∧ t.resultValid = true ∧ t.result = some (plainValue 0 (b :: p))) ∧
      (s.width.fits (plainValue 0 (b :: p)) = false → t.status = 4#3 ∧ t.resultValid = false)) ∧
  (∀ (s : State) (b : Byte) (p : List Byte), AtFirstByte s → s.src = b :: p → wirePayload b ≠ 0#7 →
    (b :: p).all wireMore = true → s.srcEnd = true →
    ∃ t, Runs ((b :: p).length + 1) s t ∧ t.phase = .idle ∧ t.status = 2#3 ∧ t.resultValid = false ∧ t.src = [])

/-- 30_encoding.md R80: the assembled value is the sum of the payloads at their group positions; the trimmed first group
is the whole payload. -/
def Obligations.AssembledValueIsTheSumOfGroups : Prop :=
  (∀ (s : State) (b : Byte) (p rest : List Byte), AtFirstByte s → s.src = b :: p ++ rest → wirePayload b ≠ 0#7 →
    marked (b :: p) = true → ∃ t, Runs (b :: p).length s t ∧ t.phase = .idle ∧
      t.acc = ∑ i ∈ Finset.range (b :: p).length,
        ((b :: p).getD i 0#8).toNat % 128 * 2 ^ (7 * ((b :: p).length - 1 - i))) ∧
  ∀ (b : Byte) (k : Nat), scan (wirePayload b) = some k → lowBits b k = b.toNat % 128

/-- 40_decoder.md R115: a DEC that completes with OK after a non-zero first payload has consumed exactly
ENCBYTES(RESULT). The host offers no further command meanwhile. -/
def Obligations.AcceptedInputIsCanonical : Prop :=
  ∀ (n : Nat) (s t : State) (b : Byte) (more : List Byte), AtFirstByte s → s.cmds = [] → s.src = b :: more →
    wirePayload b ≠ 0#7 → Runs n s t → t.phase = .idle → t.status = 1#3 →
    ∃ v, t.result = some v ∧ s.src = encBytes v ++ t.src

/-- 40_decoder.md R116: at a first byte 0x80 DEC stops with RESULT 0 and OK, and leaves the bytes that follow. -/
def Obligations.ZeroStrippingLeavesTheRest : Prop :=
  ∀ (s : State) (vsign : Bool) (vmag : Nat) (rest : List Command) (more : List Byte),
    Offers s ⟨0x02#8, vsign, vmag⟩ rest → s.src = 0x80#8 :: more →
    ∃ t, Runs 2 s t ∧ t.phase = .idle ∧ t.status = 1#3 ∧ t.resultValid = true ∧ t.result = some 0 ∧
      t.src = more ∧ t.cmds = rest

/-- 70_reset_and_hazards.md R208: after a zero-payload first byte a later DEC decodes the remaining bytes as a new
value. -/
def Obligations.LaterDecStartsAfterTheZeroByte : Prop :=
  ∀ (s : State) (c : Command) (rest : List Command) (v : Nat) (tail : List Byte),
    Offers s ⟨0x02#8, false, 0⟩ (c :: rest) → c.word = 0x02#8 → s.width.fits v = true →
    s.src = 0x80#8 :: encBytes v ++ tail →
    ∃ t, Runs (3 + (encBytes v).length) s t ∧ t.phase = .idle ∧ t.status = 1#3 ∧ t.result = some v ∧ t.src = tail

/-- 60_exceptions.md R176 item 3: END before the value ends gives UNEXPECTED_END_OF_INPUT whatever ACC holds, so a value
that already exceeds 2^W does not report OVERFLOW. -/
def Obligations.EndWinsOverOverflow : Prop :=
  ∀ (s : State) (b : Byte) (p : List Byte) (w : Nat), AtFirstByte s → s.src = b :: p → wirePayload b ≠ 0#7 →
    (b :: p).all wireMore = true → s.srcEnd = true → s.width = .finite w → 2 ^ w ≤ plainValue 0 (b :: p) →
    ∃ t, Runs ((b :: p).length + 1) s t ∧ t.phase = .idle ∧ t.status = 2#3 ∧ t.acc = plainValue 0 (b :: p)

/-- 70_reset_and_hazards.md R204, 45_encoder.md R147: an operation's outcome does not depend on earlier operations. Two
idle blocks with the same W and the same ports, whatever their other registers hold, accept a DEC into one and the
same state, and an ENC into states that differ only in ACC and FIRST, which ENC does not touch. -/
def Obligations.OperationsDoNotDependOnThePast : Prop :=
  ∀ s s' : State, s.phase = .idle → s'.phase = .idle → s.obuf = [] → s'.obuf = [] → s.SamePorts s' →
    exec .dec s = exec .dec s' ∧
    ∀ (vsign : Bool) (vmag : Nat) (t : State), exec (.enc vsign vmag) s = .next t →
      ∃ t', exec (.enc vsign vmag) s' = .next t' ∧ t' = { t with acc := s'.acc, first := s'.first }

/-! ### The host's side -/

/-- 10_state.md R22: BUSY is PHASE != IDLE. -/
def Obligations.BusyMeansNotIdle : Prop :=
  ∀ s : State, hostRead .busy s = .ok (if s.phase = .idle then 0 else 1)

/-- 70_reset_and_hazards.md R206: RESULT reads as a number exactly when BUSY = 0 and RESULT_VALID = 1, and otherwise
the read is a host fault; STATUS read while BUSY = 1 shows NONE. -/
def Obligations.ResultReadsOnlyWhenValid : Prop :=
  ∀ s : State, s.Inv →
    (s.busy = false → s.resultValid = true → ∃ v, hostRead .result s = .ok v ∧ s.result = some v ∧
      s.width.fits v = true) ∧
    ((s.busy = true ∨ s.resultValid = false) → hostRead .result s = .error .resultHoldsNoValue) ∧
    (s.busy = true → hostRead .status s = .ok 0)

/-- 10_state.md R32: the host can write nothing directly. -/
def Obligations.HostMovesWriteNoRegister : Prop :=
  ∀ (m : HostMove) (s t : State), hostMove m s = .next t → s.SameBlock t ∧ t.width = s.width ∧ (s.Inv → t.Inv)

/-- 70_reset_and_hazards.md R207: a stream changed from outside during its operation is outside the rules (refused);
between operations the host may do as it likes with either stream. -/
def Obligations.StreamsAreNotSharedDuringOperations : Prop :=
  ∀ (s : State) (n : Nat) (bs : List Byte),
    (s.phase = .decPull → hostMove (.takeSource n) s = .refused .sourceShared) ∧
    (s.phase = .encPush → hostMove (.writeSink bs) s = .refused .sinkShared) ∧
    (s.phase ≠ .decPull → hostMove (.takeSource n) s = .next { s with src := s.src.drop n }) ∧
    (s.phase ≠ .encPush → hostMove (.writeSink bs) s = .next { s with snk := s.snk ++ bs })

/-- 60_exceptions.md R182: instances share no state. A step of one leaves every other as it is, and what it does
depends on that instance alone. -/
def Obligations.InstancesShareNoState : Prop :=
  (∀ (p q : Platform) (i j : Nat), Platform.stepAt i p = .next q → i ≠ j → q[j]? = p[j]?) ∧
  (∀ (p p' q : Platform) (i : Nat), p[i]? = p'[i]? → Platform.stepAt i p = .next q →
    ∃ q', Platform.stepAt i p' = .next q' ∧ q'[i]? = q[i]?)

/-! ### Encodings and the assembler -/

/-- Every well-formed instruction, with every operand the encoding admits, decodes from its own encoding under the
FIRST it needs (30_encoding.md R76, R77, R79). -/
def Obligations.DecodeAfterEncode : Prop :=
  ∀ (w : Width) (first : Bool) (i : Instr), i.wf w = true → i.underFirst first = true →
    decode w first (encode i) = .ok i

/-- What decodes is well formed and encodes back: a source answer to itself, ENC's command to itself, and the other
commands up to the ignored operand (30_encoding.md R78, R79, R81). -/
def Obligations.EncodeAfterDecode : Prop :=
  ∀ (w : Width) (first : Bool) (i : Instr),
    (∀ a, decode w first (.answer a) = .ok i →
      i.wf w = true ∧ i.underFirst first = true ∧ encode i = .answer a) ∧
    (∀ c, decode w first (.cmd c) = .ok i →
      i.wf w = true ∧ ∃ c', encode i = .cmd c' ∧ c'.word = c.word ∧ (c.word = 0x01#8 → c' = c))

/-- 30_encoding.md R76: in each phase every byte value falls in exactly one class, and the decoder raises no error for
any byte value. -/
def Obligations.ByteClassesPartition : Prop :=
  ∀ (first : Bool) (b : Byte), (classRows.filter fun r => r.first == first && r.hits b).length = 1 ∧
    ∀ w, ∃ i, decode w first (.answer (.byte b)) = .ok i

/-- A few words written out from the tables of 30_encoding.md R76 and R77 decode to the instructions they stand for. -/
def Obligations.WrittenWordsDecode : Prop :=
  decode .inf true (.cmd ⟨0b00000001#8, true, 300⟩) = .ok (.enc true 300) ∧
  decode .inf true (.cmd ⟨0b00000010#8, true, 300⟩) = .ok .dec ∧
  decode .inf true (.cmd ⟨0b01000001#8, false, 0⟩) = .ok (.reserved 0x41#8) ∧
  decode .inf true (.answer (.byte 0b10000000#8)) = .ok (.decFZero true) ∧
  decode .inf true (.answer (.byte 0b10000010#8)) = .ok (.decFK1More 0#1) ∧
  decode .inf true (.answer (.byte 0b00001101#8)) = .ok (.decFK3Last 0b101#3) ∧
  decode .inf false (.answer (.byte 0b00101100#8)) = .ok (.decNLast 0b0101100#7) ∧
  decode .inf false (.answer (.byte 0b10000000#8)) = .ok (.decNMore 0#7) ∧
  decode .inf false (.answer .fin) = .ok .decEnd

/-- 30_encoding.md R82, the comment, the command lines and the aliases. Text after `;` changes nothing. `ENC` and its
aliases with an integer are the command word 0x01 with that sign and magnitude; `DEC` and its aliases, bare, are the
command word 0x02 with operand 0; `.word 0xNN` is the raw word with operand 0; and an alias spells its command whatever
else follows it on the line. That blanks and tabs part the words of a line, and may follow a bare name, and that hex
digits are read in both letter cases, are the model's choices (log 17). -/
def Obligations.CommentsAndAliasesChangeNothing : Prop :=
  (∀ cs ds : List Char, asmLine (cs ++ ';' :: ds) = asmLine cs) ∧
  (∀ m ∈ encNames, ∀ (a : List Char) (vsign : Bool) (vmag : Nat), (∀ c ∈ a, c ≠ ' ' ∧ c ≠ '\t' ∧ c ≠ ';') →
    asmInt a = some (vsign, vmag) → asmLine (m ++ ' ' :: a) = .ok (.command ⟨0x01#8, vsign, vmag⟩)) ∧
  (∀ m ∈ decNames, ∀ bs : List Char, (∀ c ∈ bs, c = ' ' ∨ c = '\t') →
    asmLine (m ++ bs) = .ok (.command ⟨0x02#8, false, 0⟩)) ∧
  (∀ h l : Fin 16, ∀ ds ∈ [digitChars [h, l], (digitChars [h, l]).map Char.toUpper],
    asmLine (['.', 'w', 'o', 'r', 'd', ' ', '0', 'x'] ++ ds) =
      .ok (.command ⟨BitVec.ofNat 8 (h.val * 16 + l.val), false, 0⟩)) ∧
  (∀ m ∈ encNames, ∀ cs : List Char, asmLine (m ++ ' ' :: cs) = asmLine (['E', 'N', 'C'] ++ ' ' :: cs)) ∧
  (∀ m ∈ decNames, ∀ cs : List Char, asmLine (m ++ ' ' :: cs) = asmLine (['D', 'E', 'C'] ++ ' ' :: cs))

/-- 30_encoding.md R82, `<int>` and the order of a program: a decimal integer and a `0x` hex integer are the value of
their digits, a preceding `-` sets the sign; and a program's commands are offered in the order of its lines. That hex
digits are read in both letter cases and any number of digits, leading zeros among them, is the model's choice
(log 17). -/
def Obligations.IntegersAndLinesAreRead : Prop :=
  (∀ ds : List (Fin 10), ds ≠ [] →
    asmInt (digitChars ds) = some (false, digitsValue ds) ∧
    asmInt ('-' :: digitChars ds) = some (true, digitsValue ds)) ∧
  (∀ ds : List (Fin 16), ds ≠ [] →
    asmInt ('0' :: 'x' :: digitChars ds) = some (false, digitsValue ds) ∧
    asmInt ('-' :: '0' :: 'x' :: digitChars ds) = some (true, digitsValue ds) ∧
    asmInt ('0' :: 'x' :: (digitChars ds).map Char.toUpper) = some (false, digitsValue ds)) ∧
  (∀ (s t : State) (lines : List (List Char)) (l : List Char) (c : Command), assemble s lines = .ok t →
    asmLine l = .ok (.command c) → assemble s (lines ++ [l]) = .ok { t with cmds := t.cmds ++ [c] })
end

