-- ==== Sys2Proof/Laws/Decode.lean ====
section
/-! SUPPORT. The byte-class table as the laws of a step use it (30_encoding.md R76): every byte has a class, which is
written back as that byte and needs the FIRST it was found under. -/

namespace Sys2Proof.Machine

/-- The class of a byte is encoded as that byte. -/
theorem classify_encode : ∀ (f : Bool) (b : Byte), (classify f b).map encode = some (.answer (.byte b)) := by
  decide

/-- The class of a byte stands under the FIRST it was found under. -/
theorem classify_first : ∀ (f : Bool) (b : Byte), (classify f b).map Instr.firstNeeded = some (some f) := by
  decide

/-- Every byte has a class in each phase. -/
theorem classify_some (f : Bool) (b : Byte) :
    ∃ i, classify f b = some i ∧ encode i = .answer (.byte b) ∧ i.firstNeeded = some f := by
  have he := classify_encode f b
  have hf := classify_first f b
  cases h : classify f b with
  | none => simp [h] at he
  | some i =>
    rw [h] at he hf
    exact ⟨i, rfl, by simpa using he, by simpa using hf⟩

end Sys2Proof.Machine
end

