-- ==== Sys2Proof/Laws/State.lean ====
section
/-! SUPPORT. What each named update of the state does to each field, one lemma per field per update, so that no
proof unfolds an update. -/

namespace Sys2Proof.Machine

/-! The STATUS codes as numbers (10_state.md R26). -/

@[simp] theorem StatusCode.none_eq : StatusCode.none = 0#3 := rfl
@[simp] theorem StatusCode.ok_eq : StatusCode.ok = 1#3 := rfl
@[simp] theorem StatusCode.unexpectedEnd_eq : StatusCode.unexpectedEnd = 2#3 := rfl
@[simp] theorem StatusCode.invalidArgument_eq : StatusCode.invalidArgument = 3#3 := rfl
@[simp] theorem StatusCode.overflow_eq : StatusCode.overflow = 4#3 := rfl
@[simp] theorem StatusCode.illegalCommand_eq : StatusCode.illegalCommand = 5#3 := rfl
@[simp] theorem Exc.code_unexpectedEnd : Exc.unexpectedEnd.code = 2#3 := rfl
@[simp] theorem Exc.code_invalidArgument : Exc.invalidArgument.code = 3#3 := rfl
@[simp] theorem Exc.code_overflow : Exc.overflow.code = 4#3 := rfl
@[simp] theorem Exc.code_illegalCommand : Exc.illegalCommand.code = 5#3 := rfl

variable (s : State)

/-! `State.clearResult` -/

@[simp] theorem State.clearResult_width : s.clearResult.width = s.width := rfl
@[simp] theorem State.clearResult_phase : s.clearResult.phase = s.phase := rfl
@[simp] theorem State.clearResult_acc : s.clearResult.acc = s.acc := rfl
@[simp] theorem State.clearResult_first : s.clearResult.first = s.first := rfl
@[simp] theorem State.clearResult_obuf : s.clearResult.obuf = s.obuf := rfl
@[simp] theorem State.clearResult_status : s.clearResult.status = s.status := rfl
@[simp] theorem State.clearResult_result : s.clearResult.result = none := rfl
@[simp] theorem State.clearResult_resultValid : s.clearResult.resultValid = false := rfl
@[simp] theorem State.clearResult_resetIn : s.clearResult.resetIn = s.resetIn := rfl
@[simp] theorem State.clearResult_cmds : s.clearResult.cmds = s.cmds := rfl
@[simp] theorem State.clearResult_src : s.clearResult.src = s.src := rfl
@[simp] theorem State.clearResult_srcEnd : s.clearResult.srcEnd = s.srcEnd := rfl
@[simp] theorem State.clearResult_snk : s.clearResult.snk = s.snk := rfl
@[simp] theorem State.clearResult_snkRoom : s.clearResult.snkRoom = s.snkRoom := rfl

/-! `State.putResult` -/

@[simp] theorem State.putResult_width (v : Nat) : (s.putResult v).width = s.width := rfl
@[simp] theorem State.putResult_phase (v : Nat) : (s.putResult v).phase = s.phase := rfl
@[simp] theorem State.putResult_acc (v : Nat) : (s.putResult v).acc = s.acc := rfl
@[simp] theorem State.putResult_first (v : Nat) : (s.putResult v).first = s.first := rfl
@[simp] theorem State.putResult_obuf (v : Nat) : (s.putResult v).obuf = s.obuf := rfl
@[simp] theorem State.putResult_status (v : Nat) : (s.putResult v).status = s.status := rfl
@[simp] theorem State.putResult_result (v : Nat) : (s.putResult v).result = some v := rfl
@[simp] theorem State.putResult_resultValid (v : Nat) : (s.putResult v).resultValid = true := rfl
@[simp] theorem State.putResult_resetIn (v : Nat) : (s.putResult v).resetIn = s.resetIn := rfl
@[simp] theorem State.putResult_cmds (v : Nat) : (s.putResult v).cmds = s.cmds := rfl
@[simp] theorem State.putResult_src (v : Nat) : (s.putResult v).src = s.src := rfl
@[simp] theorem State.putResult_srcEnd (v : Nat) : (s.putResult v).srcEnd = s.srcEnd := rfl
@[simp] theorem State.putResult_snk (v : Nat) : (s.putResult v).snk = s.snk := rfl
@[simp] theorem State.putResult_snkRoom (v : Nat) : (s.putResult v).snkRoom = s.snkRoom := rfl

/-! `State.complete` -/

@[simp] theorem State.complete_width (c : StatusCode) : (s.complete c).width = s.width := rfl
@[simp] theorem State.complete_phase (c : StatusCode) : (s.complete c).phase = .idle := rfl
@[simp] theorem State.complete_acc (c : StatusCode) : (s.complete c).acc = s.acc := rfl
@[simp] theorem State.complete_first (c : StatusCode) : (s.complete c).first = s.first := rfl
@[simp] theorem State.complete_obuf (c : StatusCode) : (s.complete c).obuf = s.obuf := rfl
@[simp] theorem State.complete_status (c : StatusCode) : (s.complete c).status = c := rfl
@[simp] theorem State.complete_result (c : StatusCode) : (s.complete c).result = s.result := rfl
@[simp] theorem State.complete_resultValid (c : StatusCode) : (s.complete c).resultValid = s.resultValid := rfl
@[simp] theorem State.complete_resetIn (c : StatusCode) : (s.complete c).resetIn = s.resetIn := rfl
@[simp] theorem State.complete_cmds (c : StatusCode) : (s.complete c).cmds = s.cmds := rfl
@[simp] theorem State.complete_src (c : StatusCode) : (s.complete c).src = s.src := rfl
@[simp] theorem State.complete_srcEnd (c : StatusCode) : (s.complete c).srcEnd = s.srcEnd := rfl
@[simp] theorem State.complete_snk (c : StatusCode) : (s.complete c).snk = s.snk := rfl
@[simp] theorem State.complete_snkRoom (c : StatusCode) : (s.complete c).snkRoom = s.snkRoom := rfl

/-! `State.raise` -/

@[simp] theorem State.raise_width (e : Exc) : (s.raise e).width = s.width := rfl
@[simp] theorem State.raise_phase (e : Exc) : (s.raise e).phase = .idle := rfl
@[simp] theorem State.raise_acc (e : Exc) : (s.raise e).acc = s.acc := rfl
@[simp] theorem State.raise_first (e : Exc) : (s.raise e).first = s.first := rfl
@[simp] theorem State.raise_obuf (e : Exc) : (s.raise e).obuf = [] := rfl
@[simp] theorem State.raise_status (e : Exc) : (s.raise e).status = e.code := rfl
@[simp] theorem State.raise_result (e : Exc) : (s.raise e).result = none := rfl
@[simp] theorem State.raise_resultValid (e : Exc) : (s.raise e).resultValid = false := rfl
@[simp] theorem State.raise_resetIn (e : Exc) : (s.raise e).resetIn = s.resetIn := rfl
@[simp] theorem State.raise_cmds (e : Exc) : (s.raise e).cmds = s.cmds := rfl
@[simp] theorem State.raise_src (e : Exc) : (s.raise e).src = s.src := rfl
@[simp] theorem State.raise_srcEnd (e : Exc) : (s.raise e).srcEnd = s.srcEnd := rfl
@[simp] theorem State.raise_snk (e : Exc) : (s.raise e).snk = s.snk := rfl
@[simp] theorem State.raise_snkRoom (e : Exc) : (s.raise e).snkRoom = s.snkRoom := rfl

/-! `State.takeGroup` -/

@[simp] theorem State.takeGroup_width (b : Byte) (k : Nat) : (s.takeGroup b k).width = s.width := rfl
@[simp] theorem State.takeGroup_phase (b : Byte) (k : Nat) : (s.takeGroup b k).phase = s.phase := rfl
@[simp] theorem State.takeGroup_acc (b : Byte) (k : Nat) : (s.takeGroup b k).acc = accum s.acc b k := rfl
@[simp] theorem State.takeGroup_first (b : Byte) (k : Nat) : (s.takeGroup b k).first = false := rfl
@[simp] theorem State.takeGroup_obuf (b : Byte) (k : Nat) : (s.takeGroup b k).obuf = s.obuf := rfl
@[simp] theorem State.takeGroup_status (b : Byte) (k : Nat) : (s.takeGroup b k).status = s.status := rfl
@[simp] theorem State.takeGroup_result (b : Byte) (k : Nat) : (s.takeGroup b k).result = s.result := rfl
@[simp] theorem State.takeGroup_resultValid (b : Byte) (k : Nat) : (s.takeGroup b k).resultValid = s.resultValid := rfl
@[simp] theorem State.takeGroup_resetIn (b : Byte) (k : Nat) : (s.takeGroup b k).resetIn = s.resetIn := rfl
@[simp] theorem State.takeGroup_cmds (b : Byte) (k : Nat) : (s.takeGroup b k).cmds = s.cmds := rfl
@[simp] theorem State.takeGroup_src (b : Byte) (k : Nat) : (s.takeGroup b k).src = s.src := rfl
@[simp] theorem State.takeGroup_srcEnd (b : Byte) (k : Nat) : (s.takeGroup b k).srcEnd = s.srcEnd := rfl
@[simp] theorem State.takeGroup_snk (b : Byte) (k : Nat) : (s.takeGroup b k).snk = s.snk := rfl
@[simp] theorem State.takeGroup_snkRoom (b : Byte) (k : Nat) : (s.takeGroup b k).snkRoom = s.snkRoom := rfl

/-! `State.acceptDec` -/

@[simp] theorem State.acceptDec_width : s.acceptDec.width = s.width := rfl
@[simp] theorem State.acceptDec_phase : s.acceptDec.phase = .decPull := rfl
@[simp] theorem State.acceptDec_acc : s.acceptDec.acc = 0 := rfl
@[simp] theorem State.acceptDec_first : s.acceptDec.first = true := rfl
@[simp] theorem State.acceptDec_obuf : s.acceptDec.obuf = s.obuf := rfl
@[simp] theorem State.acceptDec_status : s.acceptDec.status = .none := rfl
@[simp] theorem State.acceptDec_result : s.acceptDec.result = none := rfl
@[simp] theorem State.acceptDec_resultValid : s.acceptDec.resultValid = false := rfl
@[simp] theorem State.acceptDec_resetIn : s.acceptDec.resetIn = s.resetIn := rfl
@[simp] theorem State.acceptDec_cmds : s.acceptDec.cmds = s.cmds := rfl
@[simp] theorem State.acceptDec_src : s.acceptDec.src = s.src := rfl
@[simp] theorem State.acceptDec_srcEnd : s.acceptDec.srcEnd = s.srcEnd := rfl
@[simp] theorem State.acceptDec_snk : s.acceptDec.snk = s.snk := rfl
@[simp] theorem State.acceptDec_snkRoom : s.acceptDec.snkRoom = s.snkRoom := rfl

/-! `State.acceptEnc` -/

@[simp] theorem State.acceptEnc_width (v : Nat) : (s.acceptEnc v).width = s.width := rfl
@[simp] theorem State.acceptEnc_phase (v : Nat) : (s.acceptEnc v).phase = .encPush := rfl
@[simp] theorem State.acceptEnc_acc (v : Nat) : (s.acceptEnc v).acc = s.acc := rfl
@[simp] theorem State.acceptEnc_first (v : Nat) : (s.acceptEnc v).first = s.first := rfl
@[simp] theorem State.acceptEnc_obuf (v : Nat) : (s.acceptEnc v).obuf = encBytes v := rfl
@[simp] theorem State.acceptEnc_status (v : Nat) : (s.acceptEnc v).status = .none := rfl
@[simp] theorem State.acceptEnc_result (v : Nat) : (s.acceptEnc v).result = none := rfl
@[simp] theorem State.acceptEnc_resultValid (v : Nat) : (s.acceptEnc v).resultValid = false := rfl
@[simp] theorem State.acceptEnc_resetIn (v : Nat) : (s.acceptEnc v).resetIn = s.resetIn := rfl
@[simp] theorem State.acceptEnc_cmds (v : Nat) : (s.acceptEnc v).cmds = s.cmds := rfl
@[simp] theorem State.acceptEnc_src (v : Nat) : (s.acceptEnc v).src = s.src := rfl
@[simp] theorem State.acceptEnc_srcEnd (v : Nat) : (s.acceptEnc v).srcEnd = s.srcEnd := rfl
@[simp] theorem State.acceptEnc_snk (v : Nat) : (s.acceptEnc v).snk = s.snk := rfl
@[simp] theorem State.acceptEnc_snkRoom (v : Nat) : (s.acceptEnc v).snkRoom = s.snkRoom := rfl

/-! `State.afterPull` -/

@[simp] theorem State.afterPull_width : s.afterPull.width = s.width := rfl
@[simp] theorem State.afterPull_phase : s.afterPull.phase = s.phase := rfl
@[simp] theorem State.afterPull_acc : s.afterPull.acc = s.acc := rfl
@[simp] theorem State.afterPull_first : s.afterPull.first = s.first := rfl
@[simp] theorem State.afterPull_obuf : s.afterPull.obuf = s.obuf := rfl
@[simp] theorem State.afterPull_status : s.afterPull.status = s.status := rfl
@[simp] theorem State.afterPull_result : s.afterPull.result = s.result := rfl
@[simp] theorem State.afterPull_resultValid : s.afterPull.resultValid = s.resultValid := rfl
@[simp] theorem State.afterPull_resetIn : s.afterPull.resetIn = s.resetIn := rfl
@[simp] theorem State.afterPull_cmds : s.afterPull.cmds = s.cmds := rfl
@[simp] theorem State.afterPull_src : s.afterPull.src = s.src.tail := rfl
@[simp] theorem State.afterPull_srcEnd : s.afterPull.srcEnd = s.srcEnd := rfl
@[simp] theorem State.afterPull_snk : s.afterPull.snk = s.snk := rfl
@[simp] theorem State.afterPull_snkRoom : s.afterPull.snkRoom = s.snkRoom := rfl

/-! `State.leaveByte` -/

@[simp] theorem State.leaveByte_width (b : Byte) : (s.leaveByte b).width = s.width := rfl
@[simp] theorem State.leaveByte_phase (b : Byte) : (s.leaveByte b).phase = s.phase := rfl
@[simp] theorem State.leaveByte_acc (b : Byte) : (s.leaveByte b).acc = s.acc := rfl
@[simp] theorem State.leaveByte_first (b : Byte) : (s.leaveByte b).first = s.first := rfl
@[simp] theorem State.leaveByte_obuf (b : Byte) : (s.leaveByte b).obuf = s.obuf := rfl
@[simp] theorem State.leaveByte_status (b : Byte) : (s.leaveByte b).status = s.status := rfl
@[simp] theorem State.leaveByte_result (b : Byte) : (s.leaveByte b).result = s.result := rfl
@[simp] theorem State.leaveByte_resultValid (b : Byte) : (s.leaveByte b).resultValid = s.resultValid := rfl
@[simp] theorem State.leaveByte_resetIn (b : Byte) : (s.leaveByte b).resetIn = s.resetIn := rfl
@[simp] theorem State.leaveByte_cmds (b : Byte) : (s.leaveByte b).cmds = s.cmds := rfl
@[simp] theorem State.leaveByte_src (b : Byte) : (s.leaveByte b).src = b :: s.src := rfl
@[simp] theorem State.leaveByte_srcEnd (b : Byte) : (s.leaveByte b).srcEnd = s.srcEnd := rfl
@[simp] theorem State.leaveByte_snk (b : Byte) : (s.leaveByte b).snk = s.snk := rfl
@[simp] theorem State.leaveByte_snkRoom (b : Byte) : (s.leaveByte b).snkRoom = s.snkRoom := rfl

/-! `State.holdCommand` -/

@[simp] theorem State.holdCommand_width (c : Command) : (s.holdCommand c).width = s.width := rfl
@[simp] theorem State.holdCommand_phase (c : Command) : (s.holdCommand c).phase = s.phase := rfl
@[simp] theorem State.holdCommand_acc (c : Command) : (s.holdCommand c).acc = s.acc := rfl
@[simp] theorem State.holdCommand_first (c : Command) : (s.holdCommand c).first = s.first := rfl
@[simp] theorem State.holdCommand_obuf (c : Command) : (s.holdCommand c).obuf = s.obuf := rfl
@[simp] theorem State.holdCommand_status (c : Command) : (s.holdCommand c).status = s.status := rfl
@[simp] theorem State.holdCommand_result (c : Command) : (s.holdCommand c).result = s.result := rfl
@[simp] theorem State.holdCommand_resultValid (c : Command) : (s.holdCommand c).resultValid = s.resultValid := rfl
@[simp] theorem State.holdCommand_resetIn (c : Command) : (s.holdCommand c).resetIn = s.resetIn := rfl
@[simp] theorem State.holdCommand_cmds (c : Command) : (s.holdCommand c).cmds = c :: s.cmds := rfl
@[simp] theorem State.holdCommand_src (c : Command) : (s.holdCommand c).src = s.src := rfl
@[simp] theorem State.holdCommand_srcEnd (c : Command) : (s.holdCommand c).srcEnd = s.srcEnd := rfl
@[simp] theorem State.holdCommand_snk (c : Command) : (s.holdCommand c).snk = s.snk := rfl
@[simp] theorem State.holdCommand_snkRoom (c : Command) : (s.holdCommand c).snkRoom = s.snkRoom := rfl

/-! `State.outPush` -/

@[simp] theorem State.outPush_width (b : Byte) : (s.outPush b).width = s.width := rfl
@[simp] theorem State.outPush_phase (b : Byte) : (s.outPush b).phase = s.phase := rfl
@[simp] theorem State.outPush_acc (b : Byte) : (s.outPush b).acc = s.acc := rfl
@[simp] theorem State.outPush_first (b : Byte) : (s.outPush b).first = s.first := rfl
@[simp] theorem State.outPush_obuf (b : Byte) : (s.outPush b).obuf = s.obuf := rfl
@[simp] theorem State.outPush_status (b : Byte) : (s.outPush b).status = s.status := rfl
@[simp] theorem State.outPush_result (b : Byte) : (s.outPush b).result = s.result := rfl
@[simp] theorem State.outPush_resultValid (b : Byte) : (s.outPush b).resultValid = s.resultValid := rfl
@[simp] theorem State.outPush_resetIn (b : Byte) : (s.outPush b).resetIn = s.resetIn := rfl
@[simp] theorem State.outPush_cmds (b : Byte) : (s.outPush b).cmds = s.cmds := rfl
@[simp] theorem State.outPush_src (b : Byte) : (s.outPush b).src = s.src := rfl
@[simp] theorem State.outPush_srcEnd (b : Byte) : (s.outPush b).srcEnd = s.srcEnd := rfl
@[simp] theorem State.outPush_snk (b : Byte) : (s.outPush b).snk = s.snk ++ [b] := rfl
@[simp] theorem State.outPush_snkRoom (b : Byte) : (s.outPush b).snkRoom = s.snkRoom.less := rfl

/-! `State.resetBlock` -/

@[simp] theorem State.resetBlock_width : s.resetBlock.width = s.width := rfl
@[simp] theorem State.resetBlock_phase : s.resetBlock.phase = .idle := rfl
@[simp] theorem State.resetBlock_acc : s.resetBlock.acc = 0 := rfl
@[simp] theorem State.resetBlock_first : s.resetBlock.first = true := rfl
@[simp] theorem State.resetBlock_obuf : s.resetBlock.obuf = [] := rfl
@[simp] theorem State.resetBlock_status : s.resetBlock.status = .none := rfl
@[simp] theorem State.resetBlock_result : s.resetBlock.result = none := rfl
@[simp] theorem State.resetBlock_resultValid : s.resetBlock.resultValid = false := rfl
@[simp] theorem State.resetBlock_resetIn : s.resetBlock.resetIn = false := rfl
@[simp] theorem State.resetBlock_cmds : s.resetBlock.cmds = s.cmds := rfl
@[simp] theorem State.resetBlock_src : s.resetBlock.src = s.src := rfl
@[simp] theorem State.resetBlock_srcEnd : s.resetBlock.srcEnd = s.srcEnd := rfl
@[simp] theorem State.resetBlock_snk : s.resetBlock.snk = s.snk := rfl
@[simp] theorem State.resetBlock_snkRoom : s.resetBlock.snkRoom = s.snkRoom := rfl

end Sys2Proof.Machine
end

