-- ==== Sys2Proof/Laws/Ops.lean ====
section
/-! SUPPORT. One lemma per shared operation that says all it can do. -/

namespace Sys2Proof.Machine

@[simp] theorem State.busy_eq_true (s : State) : s.busy = true ↔ s.phase ≠ .idle := by
  simp [State.busy]

@[simp] theorem State.busy_eq_false (s : State) : s.busy = false ↔ s.phase = .idle := by
  simp [State.busy]

@[simp] theorem State.pulling_iff (s : State) (f : Bool) :
    s.pulling f = true ↔ s.phase = .decPull ∧ s.first = f := by
  simp [State.pulling]

/-- Termination either delivers ACC with OK, or raises OVERFLOW (40_decoder.md R111). -/
theorem State.terminate_cases (s : State) :
    (s.width.fits s.acc = true ∧ s.terminate = (s.putResult s.acc).complete .ok) ∨
    (s.width.fits s.acc = false ∧ s.terminate = s.raise .overflow) := by
  unfold State.terminate
  cases h : s.width.fits s.acc
  · exact .inr ⟨rfl, by simp⟩
  · exact .inl ⟨rfl, by simp⟩

theorem State.terminate_of_fits {s : State} (h : s.width.fits s.acc = true) :
    s.terminate = (s.putResult s.acc).complete .ok := by
  simp [State.terminate, h]

theorem State.terminate_of_not_fits {s : State} (h : s.width.fits s.acc = false) :
    s.terminate = s.raise .overflow := by
  simp [State.terminate, h]

/-- Termination touches no port and neither W, ACC nor FIRST, and ends in IDLE (40_decoder.md R111). -/
theorem State.terminate_frame (s : State) :
    s.terminate.width = s.width ∧ s.terminate.acc = s.acc ∧ s.terminate.first = s.first ∧
    s.terminate.phase = .idle ∧ s.terminate.resetIn = s.resetIn ∧ s.terminate.cmds = s.cmds ∧
    s.terminate.src = s.src ∧ s.terminate.srcEnd = s.srcEnd ∧ s.terminate.snk = s.snk ∧
    s.terminate.snkRoom = s.snkRoom := by
  rcases s.terminate_cases with ⟨-, h⟩ | ⟨-, h⟩ <;> simp [h]

/-- A push that is taken removes OBUF's head and appends it to the sink; the last one completes with OK; otherwise
nothing changes (45_encoder.md R143). -/
theorem State.encPush_cases (s : State) :
    (s.encPush = s ∧ (s.obuf = [] ∨ s.sinkAccepts = false)) ∨
    (∃ b, s.obuf = [b] ∧ s.sinkAccepts = true ∧
      s.encPush = ({ s.outPush b with obuf := [] } : State).complete .ok) ∨
    (∃ b c rest, s.obuf = b :: c :: rest ∧ s.sinkAccepts = true ∧
      s.encPush = { s.outPush b with obuf := c :: rest }) := by
  unfold State.encPush
  rcases h : s.obuf with _ | ⟨b, _ | ⟨c, rest⟩⟩
  · exact .inl ⟨rfl, .inl rfl⟩
  · cases ha : s.sinkAccepts
    · exact .inl ⟨by simp, .inr rfl⟩
    · exact .inr (.inl ⟨b, rfl, rfl, by simp⟩)
  · cases ha : s.sinkAccepts
    · exact .inl ⟨by simp, .inr rfl⟩
    · exact .inr (.inr ⟨b, c, rest, rfl, rfl, by simp⟩)

/-- The source answers with its next byte, with END once its bytes have run out, or not at all
(20_memory.md R51). -/
theorem State.sourceAnswer_cases (s : State) :
    (∃ b rest, s.src = b :: rest ∧ s.sourceAnswer = some (.byte b)) ∨
    (s.src = [] ∧ s.srcEnd = true ∧ s.sourceAnswer = some .fin) ∨
    (s.src = [] ∧ s.srcEnd = false ∧ s.sourceAnswer = none) := by
  unfold State.sourceAnswer
  rcases h : s.src with _ | ⟨b, rest⟩
  · cases he : s.srcEnd
    · exact .inr (.inr ⟨rfl, rfl, by simp⟩)
    · exact .inr (.inl ⟨rfl, rfl, by simp⟩)
  · exact .inl ⟨b, rest, rfl, rfl⟩

@[simp] theorem State.sinkAccepts_always {s : State} (h : s.snkRoom = .always) : s.sinkAccepts = true := by
  simp [State.sinkAccepts, h]

@[simp] theorem SinkRoom.less_always : SinkRoom.always.less = SinkRoom.always := rfl

@[simp] theorem fits_inf (v : Nat) : Width.inf.fits v = true := rfl

@[simp] theorem fits_finite (w v : Nat) : (Width.finite w).fits v = true ↔ v < 2 ^ w := by
  simp [Width.fits]

/-- The magnitude of a non-negative operand is its value (30_encoding.md R78). -/
theorem operandValue_nonneg {vsign : Bool} {vmag : Nat} (h : vsign = false ∨ vmag = 0) :
    operandValue vsign vmag = vmag := by
  rcases h with h | h <;> cases vsign <;> simp_all [operandValue]

/-- A sign bit with a magnitude other than 0 is a negative operand (30_encoding.md R78). -/
theorem operandValue_neg {vmag : Nat} (h : 0 < vmag) : operandValue true vmag < 0 := by
  simp [operandValue, h]

end Sys2Proof.Machine
end

