-- ==== Sys2Proof/Laws/Encoder.lean ====
section
/-! SUPPORT. The encoder's loop (45_encoder.md R141) in a form that recurses on the value: the groups before the
last carry C = 1, and the loop's bound is never what ends it. -/

namespace Sys2Proof.Machine

/-- One pass of the loop with a group already produced. -/
theorem encLoop_more (n v : Nat) (c : Byte) (out : List Byte) :
    encLoop (n + 1) v (c :: out) =
      if v / 128 = 0 then (BitVec.ofNat 8 (v % 128) ||| 0x80#8) :: c :: out
      else encLoop n (v / 128) ((BitVec.ofNat 8 (v % 128) ||| 0x80#8) :: c :: out) := by
  by_cases h : v / 128 = 0 <;>
    simp [encLoop, groupBits, Nat.shiftRight_eq_div_pow, h, Nat.pos_iff_ne_zero]

/-- The first pass of the loop. -/
theorem encLoop_first (n v : Nat) :
    encLoop (n + 1) v [] =
      if v / 128 = 0 then [BitVec.ofNat 8 (v % 128)]
      else encLoop n (v / 128) [BitVec.ofNat 8 (v % 128)] := by
  by_cases h : v / 128 = 0 <;>
    simp [encLoop, groupBits, Nat.shiftRight_eq_div_pow, h, Nat.pos_iff_ne_zero]

theorem or_mark_mark (g : Byte) : (g ||| 0x80#8) ||| 0x80#8 = g ||| 0x80#8 := by
  rw [BitVec.or_assoc, BitVec.or_self]

/-- What the loop has produced stays at the end, and every group put before it is marked C = 1. -/
theorem encLoop_append (n : Nat) : ∀ (v : Nat) (c : Byte) (out : List Byte),
    encLoop n v (c :: out) = (encLoop n v []).map (· ||| 0x80#8) ++ (c :: out) := by
  induction n with
  | zero => intro v c out; simp [encLoop]
  | succ n ih =>
    intro v c out
    rw [encLoop_more, encLoop_first]
    by_cases h : v / 128 = 0
    · simp [h]
    · simp only [h, if_false]
      rw [ih _ _ (c :: out), ih _ _ []]
      simp [Function.comp_def, or_mark_mark]

theorem div_group_lt {v k : Nat} (h : v < 2 ^ (k + 2)) : v / 128 < 2 ^ (k + 1) := by
  have : 2 ^ (k + 2) = 2 * 2 ^ (k + 1) := by ring
  omega

/-- A value of one group leaves the loop after one pass, whatever the bound. -/
theorem encLoop_one {v : Nat} (h : v < 128) (n m : Nat) (out : List Byte) :
    encLoop (n + 1) v out = encLoop (m + 1) v out := by
  have h0 : v / 128 = 0 := by omega
  cases out with
  | nil => rw [encLoop_first, encLoop_first, if_pos h0, if_pos h0]
  | cons c out => rw [encLoop_more, encLoop_more, if_pos h0, if_pos h0]

/-- Two bounds of at least the value's bit length give the same bytes. -/
theorem encLoop_bound (n : Nat) : ∀ (m v : Nat) (out : List Byte), v < 2 ^ (n + 1) → v < 2 ^ (m + 1) →
    encLoop (n + 1) v out = encLoop (m + 1) v out := by
  induction n with
  | zero => intro m v out hv _; exact encLoop_one (by omega) 0 m out
  | succ n ih =>
    intro m v out hv hm
    rcases m with _ | m
    · exact encLoop_one (by omega) _ _ out
    · cases out with
      | nil =>
        rw [encLoop_first (n + 1), encLoop_first (m + 1), ih m _ _ (div_group_lt hv) (div_group_lt hm)]
      | cons c out =>
        rw [encLoop_more (n + 1), encLoop_more (m + 1), ih m _ _ (div_group_lt hv) (div_group_lt hm)]

/-- A value of one group is one byte with C = 0. -/
theorem encBytes_small {v : Nat} (h : v < 128) : encBytes v = [BitVec.ofNat 8 v] := by
  have h0 : v / 128 = 0 := by omega
  rw [encBytes, encLoop_first, if_pos h0, Nat.mod_eq_of_lt h]

/-- A value of more than one group: the bytes of `v / 128`, all marked C = 1, and then the low group. -/
theorem encBytes_step {v : Nat} (h : 128 ≤ v) :
    encBytes v = (encBytes (v / 128)).map (· ||| 0x80#8) ++ [BitVec.ofNat 8 (v % 128)] := by
  have h0 : v / 128 ≠ 0 := by omega
  have hv : v < 2 ^ (v.log2 + 1) := Nat.lt_log2_self
  obtain ⟨k, hk⟩ : ∃ k, v.log2 = k + 1 := by
    refine ⟨v.log2 - 1, ?_⟩
    rcases Nat.eq_zero_or_pos v.log2 with h1 | h1
    · rw [h1] at hv
      omega
    · omega
  rw [hk] at hv
  rw [encBytes, encLoop_first, if_neg h0, encLoop_append, hk,
    encLoop_bound k (v / 128).log2 (v / 128) [] (div_group_lt hv) Nat.lt_log2_self, ← encBytes]

end Sys2Proof.Machine
end

