-- ==== Sys2Proof/Laws/PerInstr.lean ====
section
/-! SUPPORT. Statements about every instruction as syntax, one lemma per constructor. `TableMatch`: the word or byte
that `encode` writes has the fixed bits of the instruction's row of spec/opcode_table.json (mask and match,
transcribed here apart from the decoder's table). -/

namespace Sys2Proof.Laws.TableMatch

/-- The row's mask and match (opcode_table.json); `none` for DEC.END, which is no byte. -/
def maskMatch : Instr → Option (Byte × Byte)
  | .enc _ _ => some (0xFF#8, 0x01#8)
  | .dec => some (0xFF#8, 0x02#8)
  | .reserved _ => some (0x00#8, 0x00#8)
  | .decFZero _ => some (0x7F#8, 0x00#8)
  | .decFK6Last _ => some (0xC0#8, 0x40#8)
  | .decFK6More _ => some (0xC0#8, 0xC0#8)
  | .decFK5Last _ => some (0xE0#8, 0x20#8)
  | .decFK5More _ => some (0xE0#8, 0xA0#8)
  | .decFK4Last _ => some (0xF0#8, 0x10#8)
  | .decFK4More _ => some (0xF0#8, 0x90#8)
  | .decFK3Last _ => some (0xF8#8, 0x08#8)
  | .decFK3More _ => some (0xF8#8, 0x88#8)
  | .decFK2Last _ => some (0xFC#8, 0x04#8)
  | .decFK2More _ => some (0xFC#8, 0x84#8)
  | .decFK1Last _ => some (0xFE#8, 0x02#8)
  | .decFK1More _ => some (0xFE#8, 0x82#8)
  | .decFK0Last => some (0xFF#8, 0x01#8)
  | .decFK0More => some (0xFF#8, 0x81#8)
  | .decNLast _ => some (0x80#8, 0x00#8)
  | .decNMore _ => some (0x80#8, 0x80#8)
  | .decEnd => none

/-- The encoded word, of the row's format, has the row's fixed bits. -/
def Statement (i : Instr) : Prop :=
  match maskMatch i, encode i with
  | some (mask, pat), .cmd c => c.word &&& mask = pat
  | some (mask, pat), .answer (.byte b) => b &&& mask = pat
  | none, .answer .fin => True
  | _, _ => False

theorem enc (vsign : Bool) (vmag : Nat) : Statement (.enc vsign vmag) := by
  show (0x01#8 : Byte) &&& 0xFF#8 = 0x01#8
  decide

theorem dec : Statement .dec := by
  show (0x02#8 : Byte) &&& 0xFF#8 = 0x02#8
  decide

theorem reserved (word : Byte) : Statement (.reserved word) := by
  show word &&& 0x00#8 = 0x00#8
  simp

theorem decFZero (c : Bool) : Statement (.decFZero c) := by
  show wireZero c &&& 0x7F#8 = 0x00#8
  revert c
  decide

theorem decFK6Last (p : BitVec 6) : Statement (.decFK6Last p) := by
  show wireFK6Last p &&& 0xC0#8 = 0x40#8
  revert p
  decide

theorem decFK6More (p : BitVec 6) : Statement (.decFK6More p) := by
  show wireFK6More p &&& 0xC0#8 = 0xC0#8
  revert p
  decide

theorem decFK5Last (p : BitVec 5) : Statement (.decFK5Last p) := by
  show wireFK5Last p &&& 0xE0#8 = 0x20#8
  revert p
  decide

theorem decFK5More (p : BitVec 5) : Statement (.decFK5More p) := by
  show wireFK5More p &&& 0xE0#8 = 0xA0#8
  revert p
  decide

theorem decFK4Last (p : BitVec 4) : Statement (.decFK4Last p) := by
  show wireFK4Last p &&& 0xF0#8 = 0x10#8
  revert p
  decide

theorem decFK4More (p : BitVec 4) : Statement (.decFK4More p) := by
  show wireFK4More p &&& 0xF0#8 = 0x90#8
  revert p
  decide

theorem decFK3Last (p : BitVec 3) : Statement (.decFK3Last p) := by
  show wireFK3Last p &&& 0xF8#8 = 0x08#8
  revert p
  decide

theorem decFK3More (p : BitVec 3) : Statement (.decFK3More p) := by
  show wireFK3More p &&& 0xF8#8 = 0x88#8
  revert p
  decide

theorem decFK2Last (p : BitVec 2) : Statement (.decFK2Last p) := by
  show wireFK2Last p &&& 0xFC#8 = 0x04#8
  revert p
  decide

theorem decFK2More (p : BitVec 2) : Statement (.decFK2More p) := by
  show wireFK2More p &&& 0xFC#8 = 0x84#8
  revert p
  decide

theorem decFK1Last (p : BitVec 1) : Statement (.decFK1Last p) := by
  show wireFK1Last p &&& 0xFE#8 = 0x02#8
  revert p
  decide

theorem decFK1More (p : BitVec 1) : Statement (.decFK1More p) := by
  show wireFK1More p &&& 0xFE#8 = 0x82#8
  revert p
  decide

theorem decFK0Last : Statement .decFK0Last := by
  show wireFK0Last &&& 0xFF#8 = 0x01#8
  decide

theorem decFK0More : Statement .decFK0More := by
  show wireFK0More &&& 0xFF#8 = 0x81#8
  decide

theorem decNLast (p : Payload) : Statement (.decNLast p) := by
  show wireNLast p &&& 0x80#8 = 0x00#8
  revert p
  decide

theorem decNMore (p : Payload) : Statement (.decNMore p) := by
  show wireNMore p &&& 0x80#8 = 0x80#8
  revert p
  decide

theorem decEnd : Statement .decEnd := trivial

end Sys2Proof.Laws.TableMatch
end

