-- ==== Sys2Proof/Laws/Step.lean ====
section
/-! SUPPORT. What one instruction and a run of steps can do, said once. -/

namespace Sys2Proof.Machine

/-- Everything a next state of `exec` can be: an accepted command, a taken answer, or something not taken. -/
inductive ExecNext (s : State) : State → Prop where
  | acceptDec (h : s.phase = .idle) : ExecNext s s.acceptDec
  | acceptEnc (v : Nat) (h : s.phase = .idle) (hf : s.width.fits v = true) : ExecNext s (s.acceptEnc v)
  | raiseIdle (e : Exc) (h : s.phase = .idle) (he : e = .invalidArgument ∨ e = .illegalCommand) :
      ExecNext s (s.raise e)
  | held (c : Command) (h : s.phase ≠ .idle) : ExecNext s (s.holdCommand c)
  | zero (h : s.phase = .decPull) (hf : s.first = true) : ExecNext s ((s.putResult 0).complete .ok)
  | more (b : Byte) (k : Nat) (h : s.phase = .decPull) (hk : k ≤ 6) (hb : wireMore b = true)
      (hp : s.first = true → lowBits b k ≠ 0) : ExecNext s (s.takeGroup b k)
  | last (b : Byte) (k : Nat) (h : s.phase = .decPull) (hk : k ≤ 6) (hb : wireMore b = false)
      (hp : s.first = true → lowBits b k ≠ 0) : ExecNext s (s.takeGroup b k).terminate
  | endOfInput (h : s.phase = .decPull) : ExecNext s (s.raise .unexpectedEnd)
  | left (b : Byte) : ExecNext s (s.leaveByte b)
  | none (h : s.phase ≠ .decPull) : ExecNext s s

theorem firstLast_next (k : Nat) (b : Byte) (s : State) (hk : k ≤ 6) (hb : wireMore b = false)
    (hp : lowBits b k ≠ 0) : ExecNext s (firstLast k b s) := by
  unfold firstLast
  split
  case isTrue h => exact .last b k ((s.pulling_iff _).1 h).1 hk hb fun _ => hp
  case isFalse => exact .left b

theorem firstMore_next (k : Nat) (b : Byte) (s : State) (hk : k ≤ 6) (hb : wireMore b = true)
    (hp : lowBits b k ≠ 0) : ExecNext s (firstMore k b s) := by
  unfold firstMore
  split
  case isTrue h => exact .more b k ((s.pulling_iff _).1 h).1 hk hb fun _ => hp
  case isFalse => exact .left b

/-- The inversion of `exec`: whatever the instruction, its next state is one of `ExecNext`'s. -/
theorem exec_next {i : Instr} {s t : State} (h : exec i s = .next t) : ExecNext s t := by
  cases i with
  | enc vsign vmag =>
    simp only [exec, execEnc] at h
    split at h
    case isTrue hb => cases h; exact .held _ ((s.busy_eq_true).1 hb)
    case isFalse hb =>
      have hi : s.phase = .idle := by simpa using hb
      split at h
      case isTrue hf =>
        split at h
        case isTrue => cases h; exact .raiseIdle _ hi (.inl rfl)
        case isFalse hn =>
          cases h
          refine .acceptEnc _ hi ?_
          cases vsign <;> simp_all [operandValue]
      case isFalse => cases h
  | dec =>
    simp only [exec, execDec] at h
    split at h
    case isTrue hb => cases h; exact .held _ ((s.busy_eq_true).1 hb)
    case isFalse hb => cases h; exact .acceptDec (by simpa using hb)
  | reserved word =>
    simp only [exec, execReserved] at h
    split at h
    case isTrue hb => cases h; exact .held _ ((s.busy_eq_true).1 hb)
    case isFalse hb => cases h; exact .raiseIdle _ (by simpa using hb) (.inr rfl)
  | decFZero c =>
    simp only [exec, execDecFZero] at h
    split at h
    case isTrue hp => cases h; exact .zero ((s.pulling_iff _).1 hp).1 ((s.pulling_iff _).1 hp).2
    case isFalse => cases h; exact .left _
  | decFK6Last p =>
    cases h
    exact firstLast_next _ _ _ (by decide) (by revert p; decide) (by revert p; decide)
  | decFK6More p =>
    cases h
    exact firstMore_next _ _ _ (by decide) (by revert p; decide) (by revert p; decide)
  | decFK5Last p =>
    cases h
    exact firstLast_next _ _ _ (by decide) (by revert p; decide) (by revert p; decide)
  | decFK5More p =>
    cases h
    exact firstMore_next _ _ _ (by decide) (by revert p; decide) (by revert p; decide)
  | decFK4Last p =>
    cases h
    exact firstLast_next _ _ _ (by decide) (by revert p; decide) (by revert p; decide)
  | decFK4More p =>
    cases h
    exact firstMore_next _ _ _ (by decide) (by revert p; decide) (by revert p; decide)
  | decFK3Last p =>
    cases h
    exact firstLast_next _ _ _ (by decide) (by revert p; decide) (by revert p; decide)
  | decFK3More p =>
    cases h
    exact firstMore_next _ _ _ (by decide) (by revert p; decide) (by revert p; decide)
  | decFK2Last p =>
    cases h
    exact firstLast_next _ _ _ (by decide) (by revert p; decide) (by revert p; decide)
  | decFK2More p =>
    cases h
    exact firstMore_next _ _ _ (by decide) (by revert p; decide) (by revert p; decide)
  | decFK1Last p =>
    cases h
    exact firstLast_next _ _ _ (by decide) (by revert p; decide) (by revert p; decide)
  | decFK1More p =>
    cases h
    exact firstMore_next _ _ _ (by decide) (by revert p; decide) (by revert p; decide)
  | decFK0Last =>
    cases h
    exact firstLast_next _ _ _ (by decide) (by decide) (by decide)
  | decFK0More =>
    cases h
    exact firstMore_next _ _ _ (by decide) (by decide) (by decide)
  | decNLast p =>
    simp only [exec, execDecNLast] at h
    split at h
    case isTrue hp =>
      cases h
      exact .last _ _ ((s.pulling_iff _).1 hp).1 (by decide) (by revert p; decide)
        fun hf => absurd (((s.pulling_iff _).1 hp).2.symm.trans hf) (by decide)
    case isFalse => cases h; exact .left _
  | decNMore p =>
    simp only [exec, execDecNMore] at h
    split at h
    case isTrue hp =>
      cases h
      exact .more _ _ ((s.pulling_iff _).1 hp).1 (by decide) (by revert p; decide)
        fun hf => absurd (((s.pulling_iff _).1 hp).2.symm.trans hf) (by decide)
    case isFalse => cases h; exact .left _
  | decEnd =>
    simp only [exec, execDecEnd] at h
    split at h
    case isTrue hp => cases h; exact .endOfInput hp
    case isFalse hp => cases h; exact .none hp

/-- What an accepted command does, by its word and operand (40_decoder.md R106, 45_encoder.md R140, 30_encoding.md
R79). -/
inductive CommandNext (s : State) (c : Command) : State → Prop where
  | dec (hw : c.word = 0x02#8) : CommandNext s c s.acceptDec
  | enc (hw : c.word = 0x01#8) (hv : c.vsign = false ∨ c.vmag = 0) (hf : s.width.fits c.vmag = true) :
      CommandNext s c (s.acceptEnc c.vmag)
  | negative (hw : c.word = 0x01#8) (hs : c.vsign = true) (hv : 0 < c.vmag) :
      CommandNext s c (s.raise .invalidArgument)
  | reserved (h1 : c.word ≠ 0x01#8) (h2 : c.word ≠ 0x02#8) : CommandNext s c (s.raise .illegalCommand)

/-- A command at an idle block runs to one of `CommandNext`'s states, and is refused only when its operand cannot be
carried. -/
theorem runCommand (c : Command) (s : State) (hp : s.phase = .idle) :
    (∃ t, runWord (.cmd c) s = .next t ∧ CommandNext s c t) ∨
    (runWord (.cmd c) s = .refused .operandTooWide ∧ c.word = 0x01#8 ∧ s.width.fits c.vmag = false) := by
  unfold runWord
  simp only [decode, decodeCommand]
  by_cases h1 : c.word = 0x01#8
  · cases hf : s.width.fits c.vmag
    · exact .inr ⟨by simp [h1, refusalOf], h1, rfl⟩
    · left
      by_cases hv : c.vsign = false ∨ c.vmag = 0
      · exact ⟨_, by simp [h1, exec, execEnc, hp, hf, operandValue_nonneg hv], .enc h1 hv hf⟩
      · have hs : c.vsign = true := by simpa using fun h => hv (.inl h)
        have hm : 0 < c.vmag := Nat.pos_of_ne_zero fun h => hv (.inr h)
        exact ⟨_, by simp [h1, exec, execEnc, hp, hf, hs, operandValue_neg hm], .negative h1 hs hm⟩
  · left
    by_cases h2 : c.word = 0x02#8
    · exact ⟨_, by simp [h2, exec, execDec, hp], .dec h2⟩
    · exact ⟨_, by simp [h1, h2, exec, execReserved, hp], .reserved h1 h2⟩

/-- What a pulled byte does, by FIRST and its bits (40_decoder.md R108 to R111). -/
inductive ByteNext (s : State) (b : Byte) : State → Prop where
  | zero (hf : s.first = true) (hz : wirePayload b = 0#7) : ByteNext s b ((s.putResult 0).complete .ok)
  | more (k : Nat) (hk : k ≤ 6) (hb : wireMore b = true) (hs : s.first = true → scan (wirePayload b) = some k)
      (hn : s.first = false → k = 6) (hl : lowBits b k = b.toNat % 128) : ByteNext s b (s.takeGroup b k)
  | last (k : Nat) (hk : k ≤ 6) (hb : wireMore b = false) (hs : s.first = true → scan (wirePayload b) = some k)
      (hn : s.first = false → k = 6) (hl : lowBits b k = b.toNat % 128) : ByteNext s b (s.takeGroup b k).terminate

/-- `exec` never refuses or faults on a byte class or DEC.END. -/
theorem exec_answer_next {i : Instr} {a : Answer} (he : encode i = .answer a) (s : State) :
    ∃ t, exec i s = .next t := by
  cases i <;> simp only [encode, reduceCtorEq] at he <;>
    simp only [exec, execDecFZero, execDecNLast, execDecNMore, execDecEnd] <;>
    first
      | exact ⟨_, rfl⟩
      | (split <;> exact ⟨_, rfl⟩)

/-- What a first-byte class's byte shows: its continuation bit, the offset SCAN finds in it, and that the offset's
low bits are the whole payload (30_encoding.md R76, R80). -/
def firstFacts (more : Bool) (k : Nat) (b : Byte) : Bool :=
  wireMore b == more && scan (wirePayload b) == some k && lowBits b k == b.toNat % 128 && decide (k ≤ 6)

theorem firstFacts_iff {more : Bool} {k : Nat} {b : Byte} (h : firstFacts more k b = true) :
    wireMore b = more ∧ scan (wirePayload b) = some k ∧ lowBits b k = b.toNat % 128 ∧ k ≤ 6 := by
  simpa [firstFacts, and_assoc] using h

theorem firstLast_byte {k : Nat} {b : Byte} (s : State) (hp : s.phase = .decPull) (hf : s.first = true)
    (h : firstFacts false k b = true) : ByteNext s b (firstLast k b s) := by
  obtain ⟨hb, hs, hl, hk⟩ := firstFacts_iff h
  rw [firstLast, if_pos ((s.pulling_iff _).2 ⟨hp, hf⟩)]
  exact .last k hk hb (fun _ => hs) (fun h' => absurd (hf.symm.trans h') (by decide)) hl

theorem firstMore_byte {k : Nat} {b : Byte} (s : State) (hp : s.phase = .decPull) (hf : s.first = true)
    (h : firstFacts true k b = true) : ByteNext s b (firstMore k b s) := by
  obtain ⟨hb, hs, hl, hk⟩ := firstFacts_iff h
  rw [firstMore, if_pos ((s.pulling_iff _).2 ⟨hp, hf⟩)]
  exact .more k hk hb (fun _ => hs) (fun h' => absurd (hf.symm.trans h') (by decide)) hl

/-- A class's meaning in a pulling block whose FIRST it needs. -/
theorem exec_byte {i : Instr} {b : Byte} {f : Bool} {s t : State} (he : encode i = .answer (.byte b))
    (hn : i.firstNeeded = some f) (hp : s.phase = .decPull) (hf : s.first = f) (h : exec i s = .next t) :
    ByteNext s b t := by
  cases i with
  | enc => simp [encode] at he
  | dec => simp [encode] at he
  | reserved => simp [encode] at he
  | decEnd => simp [encode] at he
  | decFZero c =>
    obtain rfl : wireZero c = b := by simpa [encode] using he
    obtain rfl : true = f := by simpa [Instr.firstNeeded] using hn
    simp only [exec, execDecFZero, (s.pulling_iff _).2 ⟨hp, hf⟩, if_true] at h
    cases h
    exact .zero hf (by revert c; decide)
  | decFK6Last p =>
    obtain rfl : wireFK6Last p = b := by simpa [encode] using he
    obtain rfl : true = f := by simpa [Instr.firstNeeded] using hn
    cases h
    exact firstLast_byte s hp hf ((by decide : ∀ p, firstFacts false 6 (wireFK6Last p) = true) p)
  | decFK6More p =>
    obtain rfl : wireFK6More p = b := by simpa [encode] using he
    obtain rfl : true = f := by simpa [Instr.firstNeeded] using hn
    cases h
    exact firstMore_byte s hp hf ((by decide : ∀ p, firstFacts true 6 (wireFK6More p) = true) p)
  | decFK5Last p =>
    obtain rfl : wireFK5Last p = b := by simpa [encode] using he
    obtain rfl : true = f := by simpa [Instr.firstNeeded] using hn
    cases h
    exact firstLast_byte s hp hf ((by decide : ∀ p, firstFacts false 5 (wireFK5Last p) = true) p)
  | decFK5More p =>
    obtain rfl : wireFK5More p = b := by simpa [encode] using he
    obtain rfl : true = f := by simpa [Instr.firstNeeded] using hn
    cases h
    exact firstMore_byte s hp hf ((by decide : ∀ p, firstFacts true 5 (wireFK5More p) = true) p)
  | decFK4Last p =>
    obtain rfl : wireFK4Last p = b := by simpa [encode] using he
    obtain rfl : true = f := by simpa [Instr.firstNeeded] using hn
    cases h
    exact firstLast_byte s hp hf ((by decide : ∀ p, firstFacts false 4 (wireFK4Last p) = true) p)
  | decFK4More p =>
    obtain rfl : wireFK4More p = b := by simpa [encode] using he
    obtain rfl : true = f := by simpa [Instr.firstNeeded] using hn
    cases h
    exact firstMore_byte s hp hf ((by decide : ∀ p, firstFacts true 4 (wireFK4More p) = true) p)
  | decFK3Last p =>
    obtain rfl : wireFK3Last p = b := by simpa [encode] using he
    obtain rfl : true = f := by simpa [Instr.firstNeeded] using hn
    cases h
    exact firstLast_byte s hp hf ((by decide : ∀ p, firstFacts false 3 (wireFK3Last p) = true) p)
  | decFK3More p =>
    obtain rfl : wireFK3More p = b := by simpa [encode] using he
    obtain rfl : true = f := by simpa [Instr.firstNeeded] using hn
    cases h
    exact firstMore_byte s hp hf ((by decide : ∀ p, firstFacts true 3 (wireFK3More p) = true) p)
  | decFK2Last p =>
    obtain rfl : wireFK2Last p = b := by simpa [encode] using he
    obtain rfl : true = f := by simpa [Instr.firstNeeded] using hn
    cases h
    exact firstLast_byte s hp hf ((by decide : ∀ p, firstFacts false 2 (wireFK2Last p) = true) p)
  | decFK2More p =>
    obtain rfl : wireFK2More p = b := by simpa [encode] using he
    obtain rfl : true = f := by simpa [Instr.firstNeeded] using hn
    cases h
    exact firstMore_byte s hp hf ((by decide : ∀ p, firstFacts true 2 (wireFK2More p) = true) p)
  | decFK1Last p =>
    obtain rfl : wireFK1Last p = b := by simpa [encode] using he
    obtain rfl : true = f := by simpa [Instr.firstNeeded] using hn
    cases h
    exact firstLast_byte s hp hf ((by decide : ∀ p, firstFacts false 1 (wireFK1Last p) = true) p)
  | decFK1More p =>
    obtain rfl : wireFK1More p = b := by simpa [encode] using he
    obtain rfl : true = f := by simpa [Instr.firstNeeded] using hn
    cases h
    exact firstMore_byte s hp hf ((by decide : ∀ p, firstFacts true 1 (wireFK1More p) = true) p)
  | decFK0Last =>
    obtain rfl : wireFK0Last = b := by simpa [encode] using he
    obtain rfl : true = f := by simpa [Instr.firstNeeded] using hn
    cases h
    exact firstLast_byte s hp hf (by decide)
  | decFK0More =>
    obtain rfl : wireFK0More = b := by simpa [encode] using he
    obtain rfl : true = f := by simpa [Instr.firstNeeded] using hn
    cases h
    exact firstMore_byte s hp hf (by decide)
  | decNLast p =>
    obtain rfl : wireNLast p = b := by simpa [encode] using he
    obtain rfl : false = f := by simpa [Instr.firstNeeded] using hn
    simp only [exec, execDecNLast, (s.pulling_iff _).2 ⟨hp, hf⟩, if_true] at h
    cases h
    exact .last 6 (by decide) ((by decide : ∀ p, wireMore (wireNLast p) = false) p)
      (fun h' => absurd (hf.symm.trans h') (by decide)) (fun _ => rfl) rfl
  | decNMore p =>
    obtain rfl : wireNMore p = b := by simpa [encode] using he
    obtain rfl : false = f := by simpa [Instr.firstNeeded] using hn
    simp only [exec, execDecNMore, (s.pulling_iff _).2 ⟨hp, hf⟩, if_true] at h
    cases h
    exact .more 6 (by decide) ((by decide : ∀ p, wireMore (wireNMore p) = true) p)
      (fun h' => absurd (hf.symm.trans h') (by decide)) (fun _ => rfl) rfl

/-- A byte at a pulling block always runs, to one of `ByteNext`'s states. -/
theorem runByte (b : Byte) (s : State) (hp : s.phase = .decPull) :
    ∃ t, runWord (.answer (.byte b)) s = .next t ∧ ByteNext s b t := by
  obtain ⟨i, hc, he, hn⟩ := classify_some s.first b
  obtain ⟨t, ht⟩ := exec_answer_next he s
  refine ⟨t, ?_, exec_byte he hn hp rfl ht⟩
  simpa [runWord, decode, decodeAnswer, hc] using ht

/-- END at a pulling block raises UNEXPECTED_END_OF_INPUT. -/
theorem runEnd (s : State) (hp : s.phase = .decPull) :
    runWord (.answer .fin) s = .next (s.raise .unexpectedEnd) := by
  simp [runWord, decode, decodeAnswer, exec, execDecEnd, hp]

/-- The step of a block whose reset input is asserted. -/
theorem step_of_reset {s : State} (h : s.resetIn = true) : step s = .next s.resetBlock := by
  simp [step, h]

/-- The step of an idle block with an offered command. -/
theorem step_of_command {s : State} {c : Command} {rest : List Command} (hr : s.resetIn = false)
    (hp : s.phase = .idle) (hc : s.cmds = c :: rest) :
    step s = runWord (.cmd c) { s with cmds := rest } := by
  simp [step, hr, hp, State.fetch, hc]

/-- The step of a pulling block whose source answers. -/
theorem step_of_answer {s : State} {a : Answer} (hr : s.resetIn = false) (hp : s.phase = .decPull)
    (ha : s.sourceAnswer = some a) : step s = runWord (.answer a) s.afterPull := by
  simp [step, hr, hp, State.fetch, ha]

/-- The step of a pushing block. -/
theorem step_of_push {s : State} (hr : s.resetIn = false) (hp : s.phase = .encPush) :
    step s = .next s.encPush := by
  simp [step, hr, hp]

/-- Everything a step can do (10_state.md R34): hold, reset, accept a command, take a byte or END, push a byte. -/
inductive StepNext (s : State) : State → Prop where
  | hold (hr : s.resetIn = false)
      (h : (s.phase = .idle ∧ s.cmds = []) ∨ (s.phase = .decPull ∧ s.src = [] ∧ s.srcEnd = false) ∨
        (s.phase = .encPush ∧ (s.obuf = [] ∨ s.sinkAccepts = false))) : StepNext s s
  | reset (hr : s.resetIn = true) : StepNext s s.resetBlock
  | command (c : Command) (rest : List Command) (t : State) (hr : s.resetIn = false) (hp : s.phase = .idle)
      (hc : s.cmds = c :: rest) (h : CommandNext { s with cmds := rest } c t) : StepNext s t
  | byte (b : Byte) (rest : List Byte) (t : State) (hr : s.resetIn = false) (hp : s.phase = .decPull)
      (hs : s.src = b :: rest) (h : ByteNext { s with src := rest } b t) : StepNext s t
  | endOfInput (hr : s.resetIn = false) (hp : s.phase = .decPull) (hs : s.src = []) (he : s.srcEnd = true) :
      StepNext s (s.raise .unexpectedEnd)
  | pushLast (b : Byte) (hr : s.resetIn = false) (hp : s.phase = .encPush) (ho : s.obuf = [b])
      (ha : s.sinkAccepts = true) : StepNext s (({ s.outPush b with obuf := [] } : State).complete .ok)
  | pushMore (b c : Byte) (rest : List Byte) (hr : s.resetIn = false) (hp : s.phase = .encPush)
      (ho : s.obuf = b :: c :: rest) (ha : s.sinkAccepts = true) :
      StepNext s { s.outPush b with obuf := c :: rest }

/-- A step that goes on is one of `StepNext`'s; a step that does not is an ENC command whose operand the port cannot
carry. -/
theorem step_total (s : State) :
    (∃ t, step s = .next t ∧ StepNext s t) ∨
    (step s = .refused .operandTooWide ∧ s.resetIn = false ∧ s.phase = .idle ∧
      ∃ c rest, s.cmds = c :: rest ∧ c.word = 0x01#8 ∧ s.width.fits c.vmag = false) := by
  cases hr : s.resetIn with
  | true => exact .inl ⟨_, step_of_reset hr, .reset hr⟩
  | false =>
    cases hp : s.phase with
    | idle =>
      cases hc : s.cmds with
      | nil => exact .inl ⟨s, by simp [step, hr, hp, State.fetch, hc], .hold hr (.inl ⟨hp, hc⟩)⟩
      | cons c rest =>
        rw [step_of_command hr hp hc]
        rcases runCommand c { s with cmds := rest } hp with ⟨t, h, ht⟩ | ⟨h, hw, hf⟩
        · exact .inl ⟨t, h, .command c rest t hr hp hc ht⟩
        · exact .inr ⟨h, rfl, rfl, c, rest, rfl, hw, hf⟩
    | decPull =>
      left
      rcases s.sourceAnswer_cases with ⟨b, rest, hs, ha⟩ | ⟨hs, he, ha⟩ | ⟨hs, he, ha⟩
      · have h2 : s.afterPull = { s with src := rest } := by simp [State.afterPull, hs]
        rw [step_of_answer hr hp ha, h2]
        obtain ⟨t, h, ht⟩ := runByte b { s with src := rest } hp
        exact ⟨t, h, .byte b rest t hr hp hs ht⟩
      · have h2 : s.afterPull = s := by cases s; simp_all [State.afterPull]
        rw [step_of_answer hr hp ha, h2]
        exact ⟨_, runEnd s hp, .endOfInput hr hp hs he⟩
      · exact ⟨s, by simp [step, hr, hp, State.fetch, ha], .hold hr (.inr (.inl ⟨hp, hs, he⟩))⟩
    | encPush =>
      left
      rw [step_of_push hr hp]
      rcases s.encPush_cases with ⟨h, hh⟩ | ⟨b, ho, ha, h⟩ | ⟨b, c, rest, ho, ha, h⟩
      · exact ⟨_, rfl, by rw [h]; exact .hold hr (.inr (.inr ⟨hp, hh⟩))⟩
      · exact ⟨_, rfl, by rw [h]; exact .pushLast b hr hp ho ha⟩
      · exact ⟨_, rfl, by rw [h]; exact .pushMore b c rest hr hp ho ha⟩

/-- The inversion of `step`. -/
theorem step_next {s t : State} (h : step s = .next t) : StepNext s t := by
  rcases step_total s with ⟨u, hu, hn⟩ | ⟨hu, -⟩
  · rw [hu] at h
    cases h
    exact hn
  · rw [hu] at h
    cases h

/-- A run of `k + 1` steps whose first step goes on. -/
theorem run_succ {s t : State} (k : Nat) (h : step s = .next t) : core.run (k + 1) s = core.run k t := by
  have h' : core.step s = .next t := h
  simp [Host.Core.run, h']

/-- A run of no step. -/
theorem run_zero (s : State) : core.run 0 s = .next s := rfl

/-- A run in two parts, the first of which goes on. -/
theorem run_add (m : Nat) : ∀ {s t : State} (k : Nat), core.run m s = .next t →
    core.run (m + k) s = core.run k t := by
  induction m with
  | zero =>
    intro s t k h
    cases h
    rw [Nat.zero_add]
  | succ m ih =>
    intro s t k h
    rw [Nat.add_right_comm]
    cases hs : core.step s with
    | next u =>
      simp only [Host.Core.run, hs] at h ⊢
      exact ih k h
    | fault r => simp [Host.Core.run, hs] at h
    | refused r => simp [Host.Core.run, hs] at h

end Sys2Proof.Machine
end

