-- ==== Sys2Proof/Tests/Slice0.lean ====
section
/-! SUPPORT. The model's own tests. Expected results are the vectors of 95_test_vectors.md (X, TS, TA, TB, TE, TK, TR
rows) and the tables of 30_encoding.md R76 and R77. After them, one witness per obligation that has hypotheses. -/

namespace Sys2Proof.Tests

open Sys2Proof.Machine Sys2Proof.Claims

/-- A pulling block: W, FIRST, ACC and the bytes of a source that then answers END. -/
def pull (w : Width) (first : Bool) (acc : Nat) (bs : List Byte) : State :=
  { State.reset with width := w, phase := .decPull, first := first, acc := acc, src := bs, srcEnd := true }

/-- An idle block with offered commands and a source that then answers END. -/
def idle (w : Width) (cs : List Command) (bs : List Byte) : State :=
  { State.reset with width := w, cmds := cs, src := bs, srcEnd := true }

/-- A pushing block with this OBUF. -/
def push (room : SinkRoom) (bs : List Byte) : State :=
  { State.reset with phase := .encPush, obuf := bs, snkRoom := room }

/-- An idle block that has just decoded 5. -/
def decoded (cs : List Command) : State :=
  { idle .inf cs [] with result := some 5, resultValid := true, status := 1#3, first := false, acc := 5 }

/-- PHASE, ACC, FIRST, STATUS and RESULT after a step, as the TB rows show them. -/
def seen : Host.Outcome State Fault Refusal → Option (Phase × Nat × Bool × StatusCode × Option Nat)
  | .next t => some (t.phase, t.acc, t.first, t.status, t.result)
  | _ => none

/-- PHASE, OBUF, SNK, STATUS and RESULT_VALID after a step. -/
def sent : Host.Outcome State Fault Refusal → Option (Phase × List Byte × List Byte × StatusCode × Bool)
  | .next t => some (t.phase, t.obuf, t.snk, t.status, t.resultValid)
  | _ => none

/-! ### Well-formedness smoke -/

theorem test_wf_refuses_wide_operand : (Instr.enc false 256).wf (.finite 8) = false := by decide
theorem test_wf_takes_widest_operand : (Instr.enc true 255).wf (.finite 8) = true := by decide
theorem test_wf_refuses_reserved_enc : (Instr.reserved 0x01#8).wf .inf = false := by decide
theorem test_wf_refuses_reserved_dec : (Instr.reserved 0x02#8).wf .inf = false := by decide
theorem test_wf_command_refuses_wide : Command.wf (.finite 1) ⟨0x01#8, false, 2⟩ = false := by decide
theorem test_wf_width_refuses_zero : Width.wf (.finite 0) = false := by decide
theorem test_underFirst_refuses_later : (Instr.decNLast 0#7).underFirst true = false := by decide
theorem test_decode_refuses_wide : decode (.finite 8) true (.cmd ⟨0x01#8, false, 256⟩) = .error .operandTooWide := by
  rfl

/-! ### Every constructor's decoding, from words written bit by bit (30_encoding.md R76, R77) -/

theorem test_word_enc : decode .inf true (.cmd ⟨0b00000001#8, true, 7⟩) = .ok (.enc true 7) := by rfl
theorem test_word_dec : decode .inf true (.cmd ⟨0b00000010#8, true, 7⟩) = .ok .dec := by rfl
theorem test_word_reserved : decode .inf true (.cmd ⟨0b11111111#8, true, 7⟩) = .ok (.reserved 0xFF#8) := by rfl
theorem test_word_reserved_zero : decode .inf true (.cmd ⟨0b00000000#8, false, 0⟩) = .ok (.reserved 0x00#8) := by rfl
theorem test_word_zero : classify true 0b10000000#8 = some (.decFZero true) := by decide
theorem test_word_fk6Last : classify true 0b01010101#8 = some (.decFK6Last 0b010101#6) := by decide
theorem test_word_fk6More : classify true 0b11000001#8 = some (.decFK6More 0b000001#6) := by decide
theorem test_word_fk5Last : classify true 0b00110010#8 = some (.decFK5Last 0b10010#5) := by decide
theorem test_word_fk5More : classify true 0b10110010#8 = some (.decFK5More 0b10010#5) := by decide
theorem test_word_fk4Last : classify true 0b00011001#8 = some (.decFK4Last 0b1001#4) := by decide
theorem test_word_fk4More : classify true 0b10010110#8 = some (.decFK4More 0b0110#4) := by decide
theorem test_word_fk3Last : classify true 0b00001011#8 = some (.decFK3Last 0b011#3) := by decide
theorem test_word_fk3More : classify true 0b10001110#8 = some (.decFK3More 0b110#3) := by decide
theorem test_word_fk2Last : classify true 0b00000110#8 = some (.decFK2Last 0b10#2) := by decide
theorem test_word_fk2More : classify true 0b10000101#8 = some (.decFK2More 0b01#2) := by decide
theorem test_word_fk1Last : classify true 0b00000011#8 = some (.decFK1Last 0b1#1) := by decide
theorem test_word_fk1More : classify true 0b10000010#8 = some (.decFK1More 0b0#1) := by decide
theorem test_word_fk0Last : classify true 0b00000001#8 = some .decFK0Last := by decide
theorem test_word_fk0More : classify true 0b10000001#8 = some .decFK0More := by decide
theorem test_word_nLast : classify false 0b00101100#8 = some (.decNLast 0b0101100#7) := by decide
theorem test_word_nMore : classify false 0b10000000#8 = some (.decNMore 0b0000000#7) := by decide
theorem test_word_end : decode .inf true (.answer .fin) = .ok .decEnd := by rfl
theorem test_table_word : decodeTableWord 8 0x82 = some (.decFK1More 0#1) := by decide
theorem test_table_word_enc : decodeTableWord 8 0x01 = some (.enc false 0) := by decide

/-! ### SCAN, ACCUM, ENCBYTES (TS, TA, TE rows) -/

theorem test_scan_TS1_4_6_14_15 : scan 0x00#7 = none ∧ scan 0x03#7 = some 1 ∧ scan 0x07#7 = some 2 ∧
    scan 0x55#7 = some 6 ∧ scan 0x7F#7 = some 6 := by decide
theorem test_accum_TA4_5_10_11 : accum 127 0xFF#8 6 = 16383 ∧ accum 1 0x80#8 6 = 128 ∧ accum 1 0xFF#8 2 = 15 ∧
    accum 3 0x83#8 1 = 15 := by decide
theorem test_sticky_TB31 : stickyAccum 8 ⟨2, false⟩ 0x00#8 6 = ⟨0, true⟩ := by decide
theorem test_encBytes_TE7_13_19 : encBytes 128 = [0x81#8, 0x00#8] ∧ encBytes 8192 = [0xC0#8, 0x00#8] ∧
    encBytes 268435456 = [0x81#8, 0x80#8, 0x80#8, 0x80#8, 0x00#8] := by decide

/-! ### One step per instruction (TB, TE, TK, X rows) -/

theorem test_enc_TE11 : sent (step (idle .inf [⟨0x01#8, false, 300⟩] [])) =
    some (.encPush, [0x82#8, 0x2C#8], [], 0#3, false) := by decide
theorem test_enc_X7 : sent (step (idle .inf [⟨0x01#8, true, 1⟩] [])) = some (.idle, [], [], 3#3, false) := by decide
theorem test_enc_minus_zero : sent (step (idle .inf [⟨0x01#8, true, 0⟩] [])) =
    some (.encPush, [0x00#8], [], 0#3, false) := by decide
theorem test_push_R143 : sent (step (push .always [0x82#8, 0x2C#8])) =
    some (.encPush, [0x2C#8], [0x82#8], 0#3, false) := by decide
theorem test_push_last_R143 : sent (step (push (.bytes 1) [0x2C#8])) = some (.idle, [], [0x2C#8], 1#3, false) := by
  decide
theorem test_push_holds_R181 : sent (step (push (.bytes 0) [0x2C#8])) = some (.encPush, [0x2C#8], [], 0#3, false) := by
  decide
theorem test_dec_R106 : seen (step (decoded [⟨0x02#8, true, 9⟩])) = some (.decPull, 0, true, 0#3, none) := by decide
theorem test_reserved_00 : seen (step (decoded [⟨0x00#8, true, 9⟩])) = some (.idle, 5, false, 5#3, none) := by decide
theorem test_reserved_FF : sent (step (decoded [⟨0xFF#8, false, 0⟩])) = some (.idle, [], [], 5#3, false) := by decide
theorem test_TB1 : seen (step (pull .inf true 0 [0x00#8])) = some (.idle, 0, true, 1#3, some 0) := by decide
theorem test_TB2 : seen (step (pull .inf true 0 [0x80#8])) = some (.idle, 0, true, 1#3, some 0) := by decide
theorem test_TB3 : seen (step (pull .inf true 0 [0x01#8])) = some (.idle, 1, false, 1#3, some 1) := by decide
theorem test_TB4 : seen (step (pull .inf true 0 [0x81#8])) = some (.decPull, 1, false, 0#3, none) := by decide
theorem test_TB19 : seen (step (pull .inf true 0 [0x03#8])) = some (.idle, 3, false, 1#3, some 3) := by decide
theorem test_TB20 : seen (step (pull .inf true 0 [0x83#8])) = some (.decPull, 3, false, 0#3, none) := by decide
theorem test_TB7 : seen (step (pull .inf true 0 [0x04#8])) = some (.idle, 4, false, 1#3, some 4) := by decide
theorem test_TB8 : seen (step (pull .inf true 0 [0x84#8])) = some (.decPull, 4, false, 0#3, none) := by decide
theorem test_TB9 : seen (step (pull .inf true 0 [0x08#8])) = some (.idle, 8, false, 1#3, some 8) := by decide
theorem test_TB10 : seen (step (pull .inf true 0 [0x88#8])) = some (.decPull, 8, false, 0#3, none) := by decide
theorem test_TB11 : seen (step (pull .inf true 0 [0x10#8])) = some (.idle, 16, false, 1#3, some 16) := by decide
theorem test_TB12 : seen (step (pull .inf true 0 [0x90#8])) = some (.decPull, 16, false, 0#3, none) := by decide
theorem test_TB13 : seen (step (pull .inf true 0 [0x20#8])) = some (.idle, 32, false, 1#3, some 32) := by decide
theorem test_TB14 : seen (step (pull .inf true 0 [0xA0#8])) = some (.decPull, 32, false, 0#3, none) := by decide
theorem test_TB17 : seen (step (pull .inf true 0 [0x7F#8])) = some (.idle, 127, false, 1#3, some 127) := by decide
theorem test_TB18 : seen (step (pull .inf true 0 [0xFF#8])) = some (.decPull, 127, false, 0#3, none) := by decide
theorem test_TB21 : seen (step (pull .inf false 2 [0x2C#8])) = some (.idle, 300, false, 1#3, some 300) := by decide
theorem test_TB23 : seen (step (pull .inf false 5 [0x00#8])) = some (.idle, 640, false, 1#3, some 640) := by decide
theorem test_TB22 : seen (step (pull .inf false 2 [0xAC#8])) = some (.decPull, 300, false, 0#3, none) := by decide
theorem test_TB24 : seen (step (pull .inf false 5 [0x80#8])) = some (.decPull, 640, false, 0#3, none) := by decide
theorem test_TB27 : seen (step (pull .inf true 0 [])) = some (.idle, 0, true, 2#3, none) := by decide
theorem test_TB28 : seen (step (pull .inf false 2 [])) = some (.idle, 2, false, 2#3, none) := by decide
theorem test_TB29 : seen (step (pull (.finite 6) true 0 [0x40#8])) = some (.idle, 64, false, 4#3, none) := by decide
theorem test_TB30 : seen (step (pull (.finite 6) true 0 [0x3F#8])) = some (.idle, 63, false, 1#3, some 63) := by decide
theorem test_TB31 : seen (step (pull (.finite 8) false 2 [0x00#8])) = some (.idle, 256, false, 4#3, none) := by decide
theorem test_TB32 : seen (step (pull (.finite 8) false 1 [0x7F#8])) = some (.idle, 255, false, 1#3, some 255) := by
  decide

/-! ### The host's side -/

theorem test_result_read_faults_R206 : hostRead .result State.reset = .error .resultHoldsNoValue := by rfl
theorem test_result_read_after_dec : hostRead .result (decoded []) = .ok 5 := by rfl
theorem test_asm_enc_hex : asmLine ['E', 'N', 'C', ' ', '-', '0', 'x', '1', 'f', ' ', ';', 'x'] =
    .ok (.command ⟨0x01#8, true, 31⟩) := by rfl
theorem test_asm_word : asmLine ['.', 'w', 'o', 'r', 'd', ' ', '0', 'x', 'F', 'F'] =
    .ok (.command ⟨0xFF#8, false, 0⟩) := by rfl
theorem test_asm_source : asmLine ['.', 's', 'o', 'u', 'r', 'c', 'e', ' ', '[', '0', 'x', '8', '2', ',', ' ', '4', '4', ',',
    ' ', 'E', 'N', 'D', ']'] = .ok (.source [0x82#8, 0x2C#8] true) := by rfl
theorem test_asm_read_bare : asmLine ['R', 'E', 'A', 'D'] = .ok (.command ⟨0x02#8, false, 0⟩) := by rfl
theorem test_asm_width_zero : asmLine ['.', 'w', 'i', 'd', 't', 'h', ' ', '0'] = .error .badWidth := by rfl

/-! ### A word placed for the next step (log 10) -/

theorem test_placed_dec : seen (step (State.reset.withFetchWord 8 0x02)) = some (.decPull, 0, true, 0#3, none) := by
  decide
theorem test_placed_byte : seen (step (State.reset.withFetchWord 8 0xC0)) = some (.decPull, 64, false, 0#3, none) := by
  decide

/-! ### Witnesses: states and operands that meet the hypotheses of each obligation -/

/-- The same state with the reset input asserted. -/
def inReset (s : State) : State := { s with resetIn := true }

theorem atFirstByte_pull (w : Width) (bs : List Byte) : AtFirstByte (pull w true 0 bs) := by
  constructor <;> rfl

theorem offers_idle (w : Width) (c : Command) (cs : List Command) (bs : List Byte) :
    Offers (idle w (c :: cs) bs) c cs := by
  constructor <;> rfl

/-- A pulling block in the middle of a value has the invariant. -/
theorem inv_pull (bs : List Byte) : (pull (.finite 8) false 2 bs).Inv := by
  constructor <;> simp [pull, State.reset, State.busy, StatusCode.none, Width.wf, Width.holds, Width.nmax]

/-- A pushing block with a continued byte left has the invariant. -/
theorem inv_push (room : SinkRoom) : (push room [0x82#8, 0x2C#8]).Inv := by
  constructor <;>
    simp [push, State.reset, State.busy, StatusCode.none, Width.wf, Width.holds, Width.nmax, marked, wireMore]

/-- A block that has decoded a value has the invariant. -/
theorem inv_decoded (cs : List Command) : (decoded cs).Inv := by
  constructor <;>
    simp [decoded, idle, State.reset, State.busy, StatusCode.ok, Width.wf, Width.holds, Width.nmax, Width.fits]

theorem witness_ResetStepSetsEveryElement : (inReset (pull .inf false 2 [])).resetIn = true := by decide

theorem witness_ResetAbortsAndKeepsTheStreams :
    (inReset (push .always [0x2C#8])).resetIn = true ∧ (inReset (push .always [0x2C#8])).cmds = [] := by decide

theorem witness_AfterResetACommandIsAccepted :
    let s := inReset (idle (.finite 8) [⟨0x01#8, false, 255⟩] [])
    s.resetIn = true ∧ s.cmds = [⟨0x01#8, false, 255⟩] ∧ Command.wf s.width ⟨0x01#8, false, 255⟩ = true := by decide

theorem witness_DecAcceptanceInitialises : (decoded []).phase = .idle ∧
    (pull .inf true 0 []).phase ≠ .idle ∧ ∃ t, exec .dec (pull .inf true 0 []) = .next t := ⟨rfl, by decide, _, rfl⟩

theorem witness_EncAcceptanceFillsTheBuffer :
    let s := idle (.finite 8) [] []
    s.phase = .idle ∧ s.width.fits 255 = true ∧ s.width.fits 0 = true ∧ 0 < 255 ∧
    (push .always [0#8]).phase ≠ .idle ∧ ∃ t, exec (.enc false 3) (push .always [0#8]) = .next t :=
  ⟨rfl, rfl, rfl, by decide, by decide, _, rfl⟩

theorem witness_ReservedWordIsIllegalCommand :
    0x00#8 ≠ 0x01#8 ∧ 0x00#8 ≠ 0x02#8 ∧ 0x03#8 ≠ 0x02#8 ∧ (decoded []).phase = .idle ∧ (decoded []).obuf = [] ∧
    (pull .inf true 0 []).phase ≠ .idle ∧ ∃ t, exec (.reserved 0x00#8) (pull .inf true 0 []) = .next t :=
  ⟨by decide, by decide, by decide, rfl, rfl, by decide, _, rfl⟩

theorem witness_OperandAssembly :
    let s := idle (.finite 8) [⟨0x01#8, false, 256⟩] []
    s.resetIn = false ∧ s.phase = .idle ∧ s.cmds = [⟨0x01#8, false, 256⟩] ∧ s.width.fits 256 = false := by decide

theorem witness_ClearedResultHoldsNoValue : ∃ t, exec .dec (decoded []) = .next t ∧ t.resultValid = false ∧
    (decoded []).resultValid = true := ⟨_, rfl, rfl, rfl⟩

theorem witness_BusyBlockTakesNoCommand :
    ∃ t, (push .always [0x2C#8]).busy = true ∧ step (push .always [0x2C#8]) = .next t := ⟨_, rfl, rfl⟩

theorem witness_ZeroFirstByteEndsWithZero : (pull .inf true 0 []).phase = .decPull ∧
    (pull .inf true 0 []).first = true ∧ 0x80#8 &&& 0x7F#8 = 0x00#8 := by decide

/-- W = 6: payload 63 fits and payload 64 does not, at the boundary of both clauses of `EndsValue`. -/
theorem witness_FirstByteClassesTakeTheirBits :
    let s := pull (.finite 6) true 0 []
    s.phase = .decPull ∧ s.first = true ∧ s.width.fits (s.acc * 64 + (32 + (31#5).toNat)) = true ∧
    s.width.fits (s.acc * 128 + (64 + (0#6).toNat)) = false ∧
    wirePayload 0x3F#8 ≠ 0#7 ∧ wireMore 0x3F#8 = false ∧ wirePayload 0xC0#8 ≠ 0#7 ∧ wireMore 0xC0#8 = true := by decide

/-- W = 8 and ACC = 1: 255 fits; ACC = 2: 256 does not. -/
theorem witness_LaterBytesTakeSevenBits :
    let s := pull (.finite 8) false 1 []
    let s' := pull (.finite 8) false 2 []
    s.phase = .decPull ∧ s.first = false ∧ s.width.fits (s.acc * 128 + (0x7F#7).toNat) = true ∧
    s'.phase = .decPull ∧ s'.first = false ∧ s'.width.fits (s'.acc * 128 + (0#7).toNat) = false := by decide

theorem witness_EndRaisesUnexpectedEnd : (pull .inf false 2 []).phase = .decPull := by decide

theorem witness_DecByteFollowsScan :
    let s := pull .inf true 0 [0x82#8]
    let s' := pull .inf true 0 []
    s.resetIn = false ∧ s.phase = .decPull ∧ s.src = 0x82#8 :: [] ∧
    s'.resetIn = false ∧ s'.phase = .decPull ∧ s'.src = [] ∧ s'.srcEnd = true := by decide

theorem witness_ScanTruthTable : 0 < 7 ∧ 2 ^ 0 ≤ (1#7).toNat ∧ (1#7).toNat < 2 ^ (0 + 1) ∧
    6 < 7 ∧ 2 ^ 6 ≤ (127#7).toNat ∧ (127#7).toNat < 2 ^ (6 + 1) := by decide

theorem witness_StickyAccumulatorIsEquivalent : 1 ≤ 1 := by decide

theorem witness_EncBytesClosedForm : 1 ≤ 2 ∧ 128 < 2 ^ (7 * 2) ∧ ∀ m, 1 ≤ m → 128 < 2 ^ (7 * m) → 2 ≤ m := by
  refine ⟨by decide, by decide, fun m h1 h2 => ?_⟩
  rcases m with _ | _ | m <;> omega

theorem witness_EncBytesClosedForm_zero : 1 ≤ 1 ∧ 0 < 2 ^ (7 * 1) ∧ ∀ m, 1 ≤ m → 0 < 2 ^ (7 * m) → 1 ≤ m :=
  ⟨by decide, by decide, fun _ h _ => h⟩

theorem witness_EncBytesAreMinimal : 0 < 128 := by decide

theorem witness_EncNeverExceedsNmax : 1 ≤ 1 ∧ 1 < 2 ^ 1 ∧ 1 ≤ 8 ∧ 255 < 2 ^ 8 := by decide

theorem witness_EncPushMovesTheHead :
    let s := push (.bytes 1) [0x82#8, 0x2C#8]
    let s' := push .always [0x2C#8]
    s.resetIn = false ∧ s.phase = .encPush ∧ s.obuf = 0x82#8 :: [0x2C#8] ∧ s.sinkAccepts = true ∧ [0x2C#8] ≠ [] ∧
    s'.resetIn = false ∧ s'.phase = .encPush ∧ s'.obuf = 0x2C#8 :: [] ∧ s'.sinkAccepts = true := by decide

theorem witness_StepRunsTheDecodedInstruction :
    let s := idle (.finite 8) [⟨0x01#8, false, 255⟩] []
    let p := pull .inf false 2 [0x2C#8]
    let e := pull .inf false 2 []
    (s.resetIn = false ∧ s.phase = .idle ∧ s.cmds = [⟨0x01#8, false, 255⟩] ∧
      decode s.width s.first (.cmd ⟨0x01#8, false, 255⟩) = .ok (.enc false 255)) ∧
    (p.resetIn = false ∧ p.phase = .decPull ∧ p.src = [0x2C#8] ∧
      decode p.width p.first (.answer (.byte 0x2C#8)) = .ok (.decNLast 0x2C#7)) ∧
    (e.resetIn = false ∧ e.phase = .decPull ∧ e.src = [] ∧ e.srcEnd = true) :=
  ⟨⟨rfl, rfl, rfl, rfl⟩, ⟨rfl, rfl, rfl, rfl⟩, ⟨rfl, rfl, rfl, rfl⟩⟩

theorem witness_WaitsKeepAllState :
    let q : State := { pull .inf true 0 [] with srcEnd := false }
    (q.resetIn = false ∧ q.phase = .decPull ∧ q.src = [] ∧ q.srcEnd = false) ∧
    ((push (.bytes 0) [0#8]).resetIn = false ∧ (push (.bytes 0) [0#8]).phase = .encPush ∧
      (push (.bytes 0) [0#8]).sinkAccepts = false) ∧
    ((pull .inf true 0 []).phase = .decPull ∧ (pull .inf true 0 []).srcEnd = true) ∧
    ((push (.bytes 1) [0#8]).obuf ≠ [] ∧ (push (.bytes 1) [0#8]).sinkAccepts = true) ∧
    ((inReset (pull .inf true 0 [])).busy = true ∧ (inReset (pull .inf true 0 [])).resetIn = true) := by decide

/-- One step of each of the five kinds: reset, accept, byte, push, hold. -/
theorem witness_StepIsOneOfTheFour :
    (∃ t, step (inReset (pull .inf true 0 [])) = .next t) ∧ (∃ t, step (idle .inf [⟨0x02#8, false, 0⟩] []) = .next t) ∧
    (∃ t, step (pull .inf true 0 [0x82#8]) = .next t) ∧ (∃ t, step (push .always [0x2C#8]) = .next t) ∧
    (∃ t, step State.reset = .next t) :=
  ⟨⟨_, rfl⟩, ⟨_, rfl⟩, ⟨_, rfl⟩, ⟨_, rfl⟩, ⟨_, rfl⟩⟩

theorem witness_OnlyAnOversizeOperandStopsAStep :
    step (idle (.finite 8) [⟨0x01#8, false, 256⟩] []) = .refused .operandTooWide ∧
    (idle (.finite 8) [⟨0x01#8, true, 255⟩, ⟨0x02#8, false, 256⟩] []).offersFit = true := ⟨rfl, by decide⟩

/-- Each of the four exceptions is raised from a state with another STATUS. -/
theorem witness_EachExceptionHasItsCause :
    (∃ t, step (pull .inf true 0 []) = .next t ∧ t.status = 2#3) ∧
    (∃ t, step (idle .inf [⟨0x01#8, true, 1⟩] []) = .next t ∧ t.status = 3#3) ∧
    (∃ t, step (pull (.finite 8) false 2 [0x00#8]) = .next t ∧ t.status = 4#3) ∧
    (∃ t, step (idle .inf [⟨0x03#8, false, 0⟩] []) = .next t ∧ t.status = 5#3) :=
  ⟨⟨_, rfl, rfl⟩, ⟨_, rfl, rfl⟩, ⟨_, rfl, rfl⟩, ⟨_, rfl, rfl⟩⟩

theorem witness_OnlyDecWritesAccAndFirst : ∃ t, (pull .inf true 0 [0x82#8]).resetIn = false ∧
    step (pull .inf true 0 [0x82#8]) = .next t ∧ t.acc ≠ (pull .inf true 0 [0x82#8]).acc := ⟨_, rfl, rfl, by decide⟩

theorem witness_OnlyASuccessfulDecWritesResult :
    let s := pull .inf true 0 [0x02#8]
    ∃ t, step s = .next t ∧ (t.result.isSome = true ∧ t.result ≠ s.result) ∧
      (t.resultValid = true ∧ s.resultValid = false) := ⟨_, rfl, ⟨rfl, by decide⟩, rfl, rfl⟩

theorem witness_OnlyDecPullsAndOnlyEncPushes :
    (∃ t, step (pull .inf true 0 [0x82#8]) = .next t ∧ t.src ≠ (pull .inf true 0 [0x82#8]).src) ∧
    (∃ t, step (push .always [0x2C#8]) = .next t ∧ t.snk ≠ (push .always [0x2C#8]).snk) :=
  ⟨⟨_, rfl, by decide⟩, ⟨_, rfl, by decide⟩⟩

theorem witness_InstructionsLeaveThePortsAlone :
    (∃ t, exec (.decNMore 0#7) (pull .inf false 2 []) = .next t) ∧ (∃ t, exec .dec (pull .inf false 2 []) = .next t) :=
  ⟨⟨_, rfl⟩, ⟨_, rfl⟩⟩

theorem witness_NoRunChangesW : ∃ t, Runs 2 (pull (.finite 8) true 0 [0x82#8, 0x2C#8]) t := ⟨_, rfl⟩

theorem witness_StepKeepsInv :
    ((pull (.finite 8) false 2 [0x2C#8]).Inv ∧ ∃ t, step (pull (.finite 8) false 2 [0x2C#8]) = .next t) ∧
    ((push .always [0x82#8, 0x2C#8]).Inv ∧ ∃ t, step (push .always [0x82#8, 0x2C#8]) = .next t) ∧
    ((decoded [⟨0x01#8, false, 300⟩]).Inv ∧ ∃ t, step (decoded [⟨0x01#8, false, 300⟩]) = .next t) :=
  ⟨⟨inv_pull _, _, rfl⟩, ⟨inv_push _, _, rfl⟩, ⟨inv_decoded _, _, rfl⟩⟩

theorem witness_ResultsAppearWhenBusyFalls :
    let s := pull (.finite 8) false 2 [0x2C#8]
    s.Inv ∧ s.resetIn = false ∧ s.busy = true ∧ ∃ t, step s = .next t := ⟨inv_pull _, rfl, rfl, _, rfl⟩

theorem witness_EncRunPushesTheEncoding :
    let s := idle (.finite 8) [⟨0x01#8, false, 255⟩] []
    let z := idle (.finite 8) [⟨0x01#8, true, 0⟩] []
    let n := idle (.finite 8) [⟨0x01#8, true, 1⟩] []
    (Offers s ⟨0x01#8, false, 255⟩ [] ∧ s.width.fits 255 = true ∧ s.snkRoom = .always ∧ 2 ≤ (encBytes 255).length) ∧
    (Offers z ⟨0x01#8, true, 0⟩ [] ∧ z.width.fits 0 = true ∧ z.snkRoom = .always ∧ 1 ≤ (encBytes 0).length) ∧
    (Offers n ⟨0x01#8, true, 1⟩ [] ∧ n.width.fits 1 = true ∧ 0 < 1) :=
  ⟨⟨offers_idle _ _ _ _, rfl, rfl, by decide⟩, ⟨offers_idle _ _ _ _, rfl, rfl, by decide⟩,
    ⟨offers_idle _ _ _ _, rfl, by decide⟩⟩

/-- A loop that ends at a LAST byte with a byte left, one that ends by END, and one that waits. -/
theorem witness_DecRunFollowsTheLoop :
    let s := idle .inf [⟨0x02#8, true, 9⟩] [0x82#8, 0x2C#8, 0x05#8]
    let e := idle .inf [⟨0x02#8, false, 0⟩] [0x82#8]
    let h : State := { e with srcEnd := false }
    (Offers s ⟨0x02#8, true, 9⟩ [] ∧
      decLoop s.width s.srcEnd 0 true s.src = some ⟨.ok, some 300, 300, false, [0x05#8]⟩) ∧
    (Offers e ⟨0x02#8, false, 0⟩ [] ∧
      decLoop e.width e.srcEnd 0 true e.src = some ⟨.unexpectedEnd, none, 2, false, []⟩) ∧
    (Offers h ⟨0x02#8, false, 0⟩ [] ∧ decLoop h.width h.srcEnd 0 true h.src = none) :=
  ⟨⟨offers_idle _ _ _ _, by decide⟩, ⟨offers_idle _ _ _ _, by decide⟩, ⟨by constructor <;> rfl, by decide⟩⟩

theorem witness_DecodingAnEncodingGivesTheValue :
    let s := idle (.finite 8) [⟨0x02#8, false, 0⟩] [0x81#8, 0x7F#8, 0x05#8]
    Offers s ⟨0x02#8, false, 0⟩ [] ∧ s.width.fits 255 = true ∧ s.src = encBytes 255 ++ [0x05#8] :=
  ⟨offers_idle _ _ _ _, by decide, by decide⟩

theorem witness_DecConsumesExactlyOneValue :
    let z := pull .inf true 0 [0x80#8, 0x05#8]
    let s := pull .inf true 0 [0x82#8, 0x2C#8, 0x05#8]
    let e := pull .inf true 0 [0x81#8]
    (AtFirstByte z ∧ z.src = [0x80#8] ++ [0x05#8] ∧ wholeValue [0x80#8] = true) ∧
    (AtFirstByte s ∧ s.src = [0x82#8, 0x2C#8] ++ [0x05#8] ∧ wholeValue [0x82#8, 0x2C#8] = true) ∧
    (AtFirstByte e ∧ cutValue e.src = true ∧ e.srcEnd = true) :=
  ⟨⟨atFirstByte_pull _ _, rfl, by decide⟩, ⟨atFirstByte_pull _ _, rfl, by decide⟩,
    ⟨atFirstByte_pull _ _, by decide, rfl⟩⟩

/-- W = 8: 255 fits and 256 does not; and a source that ends first. -/
theorem witness_DecodingIsPlainBase128 :
    let s := pull (.finite 8) true 0 [0x81#8, 0x7F#8]
    let o := pull (.finite 8) true 0 [0x82#8, 0x00#8]
    let e := pull (.finite 8) true 0 [0x82#8, 0x80#8]
    (AtFirstByte s ∧ s.src = 0x81#8 :: [0x7F#8] ++ [] ∧ wirePayload 0x81#8 ≠ 0#7 ∧ marked [0x81#8, 0x7F#8] = true ∧
      s.width.fits (plainValue 0 [0x81#8, 0x7F#8]) = true) ∧
    (AtFirstByte o ∧ marked [0x82#8, 0x00#8] = true ∧ o.width.fits (plainValue 0 [0x82#8, 0x00#8]) = false) ∧
    (AtFirstByte e ∧ e.src = 0x82#8 :: [0x80#8] ∧ wirePayload 0x82#8 ≠ 0#7 ∧
      [0x82#8, 0x80#8].all wireMore = true ∧ e.srcEnd = true) :=
  ⟨⟨atFirstByte_pull _ _, rfl, by decide, by decide, by decide⟩, ⟨atFirstByte_pull _ _, by decide, by decide⟩,
    ⟨atFirstByte_pull _ _, rfl, by decide, by decide, rfl⟩⟩

theorem witness_AssembledValueIsTheSumOfGroups :
    let s := pull .inf true 0 [0x82#8, 0x2C#8, 0x05#8]
    AtFirstByte s ∧ s.src = 0x82#8 :: [0x2C#8] ++ [0x05#8] ∧ wirePayload 0x82#8 ≠ 0#7 ∧
    marked [0x82#8, 0x2C#8] = true ∧ scan (wirePayload 0x82#8) = some 1 :=
  ⟨atFirstByte_pull _ _, rfl, by decide, by decide, by decide⟩

theorem witness_AcceptedInputIsCanonical :
    let s := pull .inf true 0 [0x82#8, 0x2C#8]
    ∃ t, AtFirstByte s ∧ s.cmds = [] ∧ s.src = 0x82#8 :: [0x2C#8] ∧ wirePayload 0x82#8 ≠ 0#7 ∧ Runs 2 s t ∧
      t.phase = .idle ∧ t.status = 1#3 := ⟨_, atFirstByte_pull _ _, rfl, rfl, by decide, rfl, rfl, rfl⟩

theorem witness_ZeroStrippingLeavesTheRest :
    let s := idle .inf [⟨0x02#8, false, 0⟩] [0x80#8, 0x01#8]
    Offers s ⟨0x02#8, false, 0⟩ [] ∧ s.src = 0x80#8 :: [0x01#8] := ⟨offers_idle _ _ _ _, rfl⟩

theorem witness_LaterDecStartsAfterTheZeroByte :
    let s := idle .inf [⟨0x02#8, false, 0⟩, ⟨0x02#8, false, 0⟩] [0x80#8, 0x82#8, 0x2C#8]
    Offers s ⟨0x02#8, false, 0⟩ [⟨0x02#8, false, 0⟩] ∧ s.width.fits 300 = true ∧
    s.src = 0x80#8 :: encBytes 300 ++ [] := ⟨offers_idle _ _ _ _, rfl, by decide⟩

theorem witness_EndWinsOverOverflow :
    let s := pull (.finite 8) true 0 [0x82#8, 0x80#8]
    AtFirstByte s ∧ s.src = 0x82#8 :: [0x80#8] ∧ wirePayload 0x82#8 ≠ 0#7 ∧ [0x82#8, 0x80#8].all wireMore = true ∧
    s.srcEnd = true ∧ s.width = .finite 8 ∧ 2 ^ 8 ≤ plainValue 0 [0x82#8, 0x80#8] :=
  ⟨atFirstByte_pull _ _, rfl, by decide, by decide, rfl, rfl, by decide⟩

theorem witness_OperationsDoNotDependOnThePast :
    (decoded []).phase = .idle ∧ (idle .inf [] []).phase = .idle ∧ (decoded []).obuf = [] ∧
    (idle .inf [] []).obuf = [] ∧ (decoded []).SamePorts (idle .inf [] []) ∧
    ∃ t, exec (.enc false 300) (decoded []) = .next t := ⟨rfl, rfl, rfl, rfl, by constructor <;> rfl, _, rfl⟩

theorem witness_ResultReadsOnlyWhenValid :
    ((decoded []).Inv ∧ (decoded []).busy = false ∧ (decoded []).resultValid = true) ∧
    ((pull (.finite 8) false 2 []).Inv ∧ (pull (.finite 8) false 2 []).busy = true) :=
  ⟨⟨inv_decoded _, rfl, rfl⟩, ⟨inv_pull _, rfl⟩⟩

theorem witness_HostMovesWriteNoRegister :
    (∃ t, hostMove (.takeSource 1) (decoded []) = .next t) ∧ (decoded []).Inv := ⟨⟨_, rfl⟩, inv_decoded _⟩

theorem witness_StreamsAreNotSharedDuringOperations :
    (pull .inf true 0 []).phase = .decPull ∧ (push .always [0#8]).phase = .encPush ∧
    (decoded []).phase ≠ .decPull ∧ (decoded []).phase ≠ .encPush := by decide

theorem witness_InstancesShareNoState :
    let p : Platform := [pull .inf true 0 [0x82#8], push .always [0x2C#8]]
    let p' : Platform := [pull .inf true 0 [0x82#8]]
    (∃ q, Platform.stepAt 0 p = .next q) ∧ 0 ≠ 1 ∧ p[0]? = p'[0]? := ⟨⟨_, rfl⟩, by decide, rfl⟩

theorem witness_DecodeAfterEncode :
    (Instr.decNMore 0x7F#7).wf .inf = true ∧ (Instr.decNMore 0x7F#7).underFirst false = true ∧
    (Instr.enc true 255).wf (.finite 8) = true ∧ (Instr.enc true 255).underFirst true = true := by decide

theorem witness_EncodeAfterDecode :
    decode .inf true (.answer (.byte 0x80#8)) = .ok (.decFZero true) ∧
    decode (.finite 8) true (.cmd ⟨0x01#8, true, 255⟩) = .ok (.enc true 255) := ⟨rfl, rfl⟩

/-- `READ` bare and with a blank after it, `WRITE` with an integer, and both spellings of 0xff in `.word`. -/
theorem witness_CommentsAndAliasesChangeNothing :
    ['R', 'E', 'A', 'D'] ∈ decNames ∧ (∀ c ∈ ([] : List Char), c = ' ' ∨ c = '\t') ∧ (∀ c ∈ [' '], c = ' ' ∨ c = '\t') ∧
    ['W', 'R', 'I', 'T', 'E'] ∈ encNames ∧ (∀ c ∈ ['-', '1'], c ≠ ' ' ∧ c ≠ '\t' ∧ c ≠ ';') ∧
    asmInt ['-', '1'] = some (true, 1) ∧
    ∀ ds ∈ [['f', 'f'], ['F', 'F']], ds ∈ [digitChars [(15 : Fin 16), 15], (digitChars [(15 : Fin 16), 15]).map Char.toUpper] :=
  ⟨by simp [decNames], by simp, by simp, by simp [encNames], by simp, rfl, by decide⟩

theorem witness_IntegersAndLinesAreRead :
    ([3, 0, 0] : List (Fin 10)) ≠ [] ∧ ([1, 15] : List (Fin 16)) ≠ [] ∧
    (∃ t, assemble State.reset [['D', 'E', 'C']] = .ok t) ∧
    asmLine ['R', 'E', 'A', 'D'] = .ok (.command ⟨0x02#8, false, 0⟩) := ⟨by decide, by decide, ⟨_, rfl⟩, rfl⟩

end Sys2Proof.Tests
end

section
/-! What several statements use of the model: the encoder's bytes counted and marked (45_encoder.md R142, R144), ACCUM
as a sum (40_decoder.md R104), and the capacity NMAX (00_scope.md R7). -/

namespace Sys2Proof.Machine

/-! ### ENCBYTES by its groups -/

/-- ENCBYTES emits at least one byte (45_encoder.md R141, a do-while loop). -/
theorem encBytes_length_pos (v : Nat) : 0 < (encBytes v).length := by
  rcases Nat.lt_or_ge v 128 with h | h
  · simp [encBytes_small h]
  · simp [encBytes_step h]

/-- A value of more than one group has one byte more than the value without its low group. -/
theorem encBytes_length_step {v : Nat} (h : 128 ≤ v) :
    (encBytes v).length = (encBytes (v / 128)).length + 1 := by
  simp [encBytes_step h]

/-- Seven value bits per byte (45_encoder.md R144). -/
theorem encBytes_length_le_iff (n : Nat) :
    ∀ v, (encBytes v).length ≤ n + 1 ↔ v < 2 ^ (7 * (n + 1)) := by
  induction n with
  | zero =>
    intro v
    rcases Nat.lt_or_ge v 128 with h | h
    · simp [encBytes_small h, h]
    · have hpos := encBytes_length_pos (v / 128)
      have hlen := encBytes_length_step h
      omega
  | succ n ih =>
    intro v
    have hpow : 2 ^ (7 * (n + 1 + 1)) = 2 ^ (7 * (n + 1)) * 128 := by ring
    rw [hpow]
    rcases Nat.lt_or_ge v 128 with h | h
    · have hbig : 0 < 2 ^ (7 * (n + 1)) := by positivity
      simp only [encBytes_small h, List.length_singleton]
      omega
    · rw [encBytes_length_step h, Nat.add_le_add_iff_right, ih, Nat.div_lt_iff_lt_mul (by decide)]

/-- Marking sets bit 7 (45_encoder.md R142). -/
@[simp] theorem wireMore_mark (b : Byte) : wireMore (b ||| 0x80#8) = true := by
  simp [wireMore]

/-- A bare group has bit 7 = 0. -/
theorem wireMore_ofNat {v : Nat} (h : v < 128) : wireMore (BitVec.ofNat 8 v) = false := by
  rw [wireMore, BitVec.getLsbD_ofNat, Nat.testBit_lt_two_pow h, Bool.and_false]

/-- Marked bytes and then one byte with C = 0 are correctly marked. -/
theorem marked_map_mark_append (bs : List Byte) {b : Byte} (hb : wireMore b = false) :
    marked (bs.map (· ||| 0x80#8) ++ [b]) = true := by
  induction bs with
  | nil => simp [marked, hb]
  | cons c cs ih =>
    obtain ⟨d, ds, hd⟩ : ∃ d ds, cs.map (· ||| 0x80#8) ++ [b] = d :: ds :=
      List.exists_cons_of_ne_nil (by simp)
    rw [hd] at ih
    simp [hd, marked, ih]

/-- ENCBYTES marks every byte but the last (45_encoder.md R142). -/
theorem marked_encBytes (v : Nat) : marked (encBytes v) = true := by
  rcases Nat.lt_or_ge v 128 with h | h
  · simp [encBytes_small h, marked, wireMore_ofNat h]
  · rw [encBytes_step h]
    exact marked_map_mark_append _ (wireMore_ofNat (Nat.mod_lt _ (by decide)))

/-- Correctly marked bytes are some bytes. -/
theorem ne_nil_of_marked {bs : List Byte} (h : marked bs = true) : bs ≠ [] := by
  rintro rfl
  simp [marked] at h

/-- What follows the head of correctly marked bytes is correctly marked. -/
theorem marked_tail {b c : Byte} {rest : List Byte} (h : marked (b :: c :: rest) = true) :
    marked (c :: rest) = true := by
  simp only [marked, Bool.and_eq_true] at h
  exact h.2

/-! ### SCAN and ACCUM -/

/-- ACCUM's two operands share no bit, so it is a sum (40_decoder.md R104). -/
theorem accum_eq_add (acc : Nat) (b : Byte) (k : Nat) :
    accum acc b k = acc * 2 ^ (k + 1) + lowBits b k := by
  have hlow : lowBits b k < 2 ^ (k + 1) := Nat.mod_lt _ (by positivity)
  rw [accum, ← Nat.shiftLeft_add_eq_or_of_lt hlow, Nat.shiftLeft_eq]

/-- ACCUM gives 0 only from an ACC of 0 and low bits of 0. -/
theorem accum_pos {acc : Nat} {b : Byte} {k : Nat} (h : 0 < acc ∨ 0 < lowBits b k) : 0 < accum acc b k := by
  rw [accum_eq_add]
  rcases h with h | h
  · exact Nat.add_pos_left (by positivity) _
  · exact Nat.add_pos_right _ h

/-- The payload as a number. -/
theorem wirePayload_toNat (b : Byte) : (wirePayload b).toNat = b.toNat % 128 := by
  simp [wirePayload]

/-- SCAN finds a bit only in a payload other than 0 (40_decoder.md R101). -/
theorem payload_pos_of_scan {b : Byte} {k : Nat} (h : scan (wirePayload b) = some k) : 0 < b.toNat % 128 := by
  refine Nat.pos_of_ne_zero fun h0 => ?_
  have hz : wirePayload b = 0#7 := BitVec.eq_of_toNat_eq (by rw [wirePayload_toNat, h0]; rfl)
  have hnone : scan 0#7 = none := by decide
  rw [hz, hnone] at h
  cases h

/-! ### The capacity NMAX -/

/-- For a legal finite W, NMAX is the number of groups that W bits start. -/
theorem nmax_eq {w : Nat} (h : 1 ≤ w) : max 1 ((w + 6) / 7) = (w - 1) / 7 + 1 := by
  omega

/-- A value of W bits has at most NMAX bytes (00_scope.md R7). -/
theorem encBytes_length_le_nmax {w v : Nat} (hw : 1 ≤ w) (hv : v < 2 ^ w) :
    (encBytes v).length ≤ max 1 ((w + 6) / 7) := by
  rw [nmax_eq hw, encBytes_length_le_iff]
  exact hv.trans_le (Nat.pow_le_pow_right (by decide) (by omega))

/-- The widest value of W bits has NMAX bytes (00_scope.md R7). -/
theorem encBytes_length_widest {w : Nat} (hw : 1 ≤ w) :
    (encBytes (2 ^ w - 1)).length = max 1 ((w + 6) / 7) := by
  refine Nat.le_antisymm (encBytes_length_le_nmax hw (Nat.sub_one_lt (by positivity))) ?_
  rw [nmax_eq hw]
  cases hn : (w - 1) / 7 with
  | zero => exact encBytes_length_pos _
  | succ n =>
    have hpow : 2 ^ (7 * (n + 1)) < 2 ^ w := Nat.pow_lt_pow_right (by decide) (by omega)
    have hlong := mt (encBytes_length_le_iff n (2 ^ w - 1)).1 (by omega)
    omega

/-- 0 is below 2^W for every W. -/
@[simp] theorem fits_zero (w : Width) : w.fits 0 = true := by
  cases w with
  | inf => rfl
  | finite w => simp

@[simp] theorem holds_inf (n : Nat) : Width.inf.holds n = true := rfl

@[simp] theorem holds_finite (w n : Nat) : (Width.finite w).holds n = true ↔ n ≤ max 1 ((w + 6) / 7) := by
  simp [Width.holds, Width.nmax]

/-- Fewer bytes than some that are within the capacity are within it. -/
theorem holds_of_le {w : Width} {m n : Nat} (hmn : m ≤ n) (h : w.holds n = true) : w.holds m = true := by
  cases w with
  | inf => rfl
  | finite w => exact (holds_finite w m).2 (hmn.trans ((holds_finite w n).1 h))

@[simp] theorem holds_zero (w : Width) : w.holds 0 = true := by
  cases w with
  | inf => rfl
  | finite w => simp

/-- The bytes of a value that the command port carries are within OBUF's capacity. -/
theorem holds_encBytes {w : Width} {v : Nat} (hw : w.wf = true) (hv : w.fits v = true) :
    w.holds (encBytes v).length = true := by
  cases w with
  | inf => rfl
  | finite w =>
    rw [holds_finite]
    exact encBytes_length_le_nmax (by simpa [Width.wf] using hw) ((fits_finite w v).1 hv)

end Sys2Proof.Machine
end

section
/-! What a run keeps, from what every step keeps; W first (00_scope.md R6). -/

namespace Sys2Proof.Machine

/-- The inversion of a run of `n + 1` steps. -/
theorem run_succ_next {n : Nat} {s t : State} (h : core.run (n + 1) s = .next t) :
    ∃ u, step s = .next u ∧ core.run n u = .next t := by
  cases hs : core.step s with
  | next u => exact ⟨u, hs, by simpa only [Host.Core.run, hs] using h⟩
  | fault r => simp [Host.Core.run, hs] at h
  | refused r => simp [Host.Core.run, hs] at h

/-- What every step keeps, every run keeps. -/
theorem run_keeps {P : State → Prop} (hstep : ∀ s t, P s → step s = .next t → P t) (n : Nat) :
    ∀ {s t : State}, P s → core.run n s = .next t → P t := by
  induction n with
  | zero =>
    intro s t hs h
    cases h
    exact hs
  | succ n ih =>
    intro s t hs h
    obtain ⟨u, hu, hrun⟩ := run_succ_next h
    exact ih (hstep s u hs hu) hrun

theorem CommandNext.width_eq {s t : State} {c : Command} (h : CommandNext s c t) : t.width = s.width := by
  cases h <;> rfl

theorem ByteNext.width_eq {s t : State} {b : Byte} (h : ByteNext s b t) : t.width = s.width := by
  cases h with
  | zero => rfl
  | more => rfl
  | last k => exact (s.takeGroup b k).terminate_frame.1

/-- No step changes W. -/
theorem step_width {s t : State} (h : step s = .next t) : t.width = s.width := by
  cases step_next h with
  | command c rest t hr hp hc h => exact h.width_eq
  | byte b rest t hr hp hs h => exact h.width_eq
  | hold | reset | endOfInput | pushLast | pushMore => rfl

end Sys2Proof.Machine
end

section
/-! The invariant, phase by phase: what is enough for it in each phase, and that each way a step can end has it
(10_state.md R34). -/

namespace Sys2Proof.Machine

namespace State.Inv

/-- The invariant speaks of W and the block's registers only, not of the ports. -/
theorem of_sameBlock {s t : State} (hi : s.Inv) (hb : s.SameBlock t) (hw : t.width = s.width) : t.Inv := by
  obtain ⟨hphase, hacc, hfirst, hobuf, hstatus, hresult, hvalid⟩ := hb
  constructor <;> simp only [State.busy, hphase, hacc, hfirst, hobuf, hstatus, hresult, hvalid, hw]
  exacts [hi.width_legal, hi.obuf_phase, hi.obuf_capacity, hi.obuf_marked, hi.result_valid, hi.result_fits,
    hi.status_legal, by simpa [State.busy] using hi.busy_quiet, hi.valid_ok, hi.first_zero, hi.later_pos]

/-- Only a pushing block has bytes in OBUF (10_state.md R25). -/
theorem obuf_nil {s : State} (hi : s.Inv) (hp : s.phase ≠ .encPush) : s.obuf = [] :=
  not_not.1 (mt hi.obuf_phase.2 hp)

/-- A busy block has STATUS NONE and no RESULT (70_reset_and_hazards.md R206). -/
theorem quiet {s : State} (hi : s.Inv) (hp : s.phase ≠ .idle) :
    s.status = .none ∧ s.result = none ∧ s.resultValid = false := by
  obtain ⟨hstatus, hvalid⟩ := hi.busy_quiet (s.busy_eq_true.2 hp)
  refine ⟨hstatus, ?_, hvalid⟩
  simpa [hvalid] using hi.result_valid

/-- Enough for the invariant of an idle block: OBUF is empty, and RESULT, RESULT_VALID and STATUS agree. -/
theorem of_idle {t : State} (hw : t.width.wf = true) (hp : t.phase = .idle) (ho : t.obuf = [])
    (hs : t.status.toNat ≤ 5) (hv : t.resultValid = t.result.isSome)
    (hf : ∀ v, t.result = some v → t.width.fits v = true ∧ t.status = .ok) : t.Inv where
  width_legal := hw
  obuf_phase := by simp [hp, ho]
  obuf_capacity := by simp [ho]
  obuf_marked := by simp [hp]
  result_valid := hv
  result_fits v h := (hf v h).1
  status_legal := hs
  busy_quiet := by simp [hp]
  valid_ok h := by
    obtain ⟨v, hr⟩ := Option.isSome_iff_exists.1 (hv.symm.trans h)
    exact (hf v hr).2
  first_zero := by simp [hp]
  later_pos := by simp [hp]

/-- Enough for the invariant of a pulling block: OBUF is empty, nothing is shown yet, and FIRST says whether ACC
is 0. -/
theorem of_decPull {t : State} (hw : t.width.wf = true) (hp : t.phase = .decPull) (ho : t.obuf = [])
    (hs : t.status = .none) (hr : t.result = none) (hv : t.resultValid = false)
    (hz : t.first = true → t.acc = 0) (hl : t.first = false → 0 < t.acc) : t.Inv where
  width_legal := hw
  obuf_phase := by simp [hp, ho]
  obuf_capacity := by simp [ho]
  obuf_marked := by simp [hp]
  result_valid := by simp [hr, hv]
  result_fits := by simp [hr]
  status_legal := by simp [hs]
  busy_quiet _ := ⟨hs, hv⟩
  valid_ok := by simp [hv]
  first_zero _ := hz
  later_pos _ := hl

/-- Enough for the invariant of a pushing block: OBUF is within NMAX and marked, and nothing is shown yet. -/
theorem of_encPush {t : State} (hw : t.width.wf = true) (hp : t.phase = .encPush)
    (hc : t.width.holds t.obuf.length = true) (hm : marked t.obuf = true)
    (hs : t.status = .none) (hr : t.result = none) (hv : t.resultValid = false) : t.Inv where
  width_legal := hw
  obuf_phase := iff_of_true hp (ne_nil_of_marked hm)
  obuf_capacity := hc
  obuf_marked _ := hm
  result_valid := by simp [hr, hv]
  result_fits := by simp [hr]
  status_legal := by simp [hs]
  busy_quiet _ := ⟨hs, hv⟩
  valid_ok := by simp [hv]
  first_zero := by simp [hp]
  later_pos := by simp [hp]

end State.Inv

/-! ### Each operation of a step -/

/-- No exception's code is 6 or 7 (10_state.md R26). -/
theorem Exc.code_le (e : Exc) : e.code.toNat ≤ 5 := by
  cases e <;> decide

theorem State.raise_inv {s : State} (hw : s.width.wf = true) (e : Exc) : (s.raise e).Inv :=
  .of_idle hw rfl rfl e.code_le rfl (by simp)

theorem State.resetBlock_inv {s : State} (hw : s.width.wf = true) : s.resetBlock.Inv :=
  .of_idle hw rfl rfl (by simp) rfl (by simp)

/-- A value that is put in RESULT with OK. -/
theorem State.deliver_inv {s : State} {v : Nat} (hw : s.width.wf = true) (ho : s.obuf = [])
    (hv : s.width.fits v = true) : ((s.putResult v).complete .ok).Inv :=
  .of_idle hw rfl ho (by simp) rfl (by simp [hv])

theorem State.terminate_inv {s : State} (hw : s.width.wf = true) (ho : s.obuf = []) : s.terminate.Inv := by
  rcases s.terminate_cases with ⟨hf, h⟩ | ⟨-, h⟩ <;> rw [h]
  · exact State.deliver_inv hw ho hf
  · exact State.raise_inv hw _

theorem State.acceptDec_inv {s : State} (hw : s.width.wf = true) (ho : s.obuf = []) : s.acceptDec.Inv :=
  .of_decPull hw rfl ho rfl rfl rfl (by simp) (by simp)

theorem State.acceptEnc_inv {s : State} {v : Nat} (hw : s.width.wf = true) (hv : s.width.fits v = true) :
    (s.acceptEnc v).Inv :=
  .of_encPush hw rfl (holds_encBytes hw hv) (marked_encBytes v) rfl rfl rfl

/-- After a group ACC is positive: it was, or FIRST was 1 and the group's bits are not 0. -/
theorem State.takeGroup_inv {s : State} {b : Byte} {k : Nat} (hi : s.Inv) (hp : s.phase = .decPull)
    (hb : s.first = true → 0 < lowBits b k) : (s.takeGroup b k).Inv := by
  obtain ⟨hs, hr, hv⟩ := hi.quiet (by simp [hp])
  refine .of_decPull hi.width_legal hp (hi.obuf_nil (by simp [hp])) hs hr hv (by simp) fun _ => accum_pos ?_
  cases hf : s.first with
  | true => exact .inr (hb hf)
  | false => exact .inl (hi.later_pos hp hf)

/-- A push with bytes left behind it. -/
theorem State.pushMore_inv {s : State} {b c : Byte} {rest : List Byte} (hi : s.Inv) (hp : s.phase = .encPush)
    (ho : s.obuf = b :: c :: rest) : ({ s.outPush b with obuf := c :: rest } : State).Inv := by
  obtain ⟨hs, hr, hv⟩ := hi.quiet (by simp [hp])
  have hcap := hi.obuf_capacity
  have hmarked := hi.obuf_marked hp
  rw [ho] at hcap hmarked
  exact .of_encPush hi.width_legal hp (holds_of_le (Nat.le_succ _) hcap) (marked_tail hmarked) hs hr hv

/-- The push of the last byte. -/
theorem State.pushLast_inv {s : State} {b : Byte} (hi : s.Inv) (hp : s.phase = .encPush) :
    (({ s.outPush b with obuf := [] } : State).complete .ok).Inv := by
  obtain ⟨-, hr, hv⟩ := hi.quiet (by simp [hp])
  exact .of_idle hi.width_legal rfl rfl (by simp) (by simp [hr, hv]) (by simp [hr])

/-! ### The step -/

/-- Whatever an accepted command does, the invariant holds after it. -/
theorem CommandNext.inv {s t : State} {c : Command} (h : CommandNext s c t) (hw : s.width.wf = true)
    (ho : s.obuf = []) : t.Inv := by
  cases h with
  | dec => exact State.acceptDec_inv hw ho
  | enc _ _ hf => exact State.acceptEnc_inv hw hf
  | negative | reserved => exact State.raise_inv hw _

/-- Whatever a pulled byte does, the invariant holds after it. -/
theorem ByteNext.inv {s t : State} {b : Byte} (h : ByteNext s b t) (hi : s.Inv) (hp : s.phase = .decPull) :
    t.Inv := by
  have ho : s.obuf = [] := hi.obuf_nil (by simp [hp])
  cases h with
  | zero => exact State.deliver_inv hi.width_legal ho (fits_zero _)
  | more k _ _ hs _ hl => exact State.takeGroup_inv hi hp fun hf => hl ▸ payload_pos_of_scan (hs hf)
  | last => exact State.terminate_inv hi.width_legal ho

/-- Every step keeps the invariant. -/
theorem step_inv {s t : State} (hi : s.Inv) (h : step s = .next t) : t.Inv := by
  cases step_next h with
  | hold => exact hi
  | reset => exact State.resetBlock_inv hi.width_legal
  | command c rest t hr hp hc h => exact h.inv hi.width_legal (hi.obuf_nil (by simp [hp]))
  | byte b rest t hr hp hs h =>
    have hi' : ({ s with src := rest } : State).Inv :=
      hi.of_sameBlock ⟨rfl, rfl, rfl, rfl, rfl, rfl, rfl⟩ rfl
    exact h.inv hi' hp
  | endOfInput => exact State.raise_inv hi.width_legal _
  | pushLast b hr hp => exact State.pushLast_inv hi hp
  | pushMore b c rest hr hp ho => exact State.pushMore_inv hi hp ho

end Sys2Proof.Machine
end

section
/-! The statements of 00_scope.md. -/

namespace Sys2Proof.Proofs

open Sys2Proof.Machine Sys2Proof.Claims

/-- Settles O36, by what each way a step can end leaves in the registers. -/
theorem stepKeepsInv : Obligations.StepKeepsInv := by
  intro s t hi h
  exact step_inv hi h

/-- Settles O23, by the count of seven value bits per byte. -/
theorem encNeverExceedsNmax : Obligations.EncNeverExceedsNmax := by
  intro w hw
  exact ⟨fun v hv => encBytes_length_le_nmax hw hv, encBytes_length_widest hw⟩

/-- Settles O34, by induction on the run over steps that keep W. -/
theorem noRunChangesW : Obligations.NoRunChangesW := by
  intro n s t h
  exact run_keeps (P := fun u => u.width = s.width) (fun u v hu huv => (step_width huv).trans hu) n rfl h

end Sys2Proof.Proofs
end

section
/-! What an operation leaves at the ports and in RESULT (10_state.md R20, R27, R34), read off the inversions of `exec`
and `step`. -/

namespace Sys2Proof.Machine

/-! ### The ports -/

/-- The last group of a value moves no port, whichever way the termination ends (40_decoder.md R111). -/
theorem State.lastGroup_samePorts (s : State) (b : Byte) (k : Nat) : s.SamePorts (s.takeGroup b k).terminate := by
  obtain ⟨hw, -, -, -, hr, hc, hs, he, hk, hm⟩ := (s.takeGroup b k).terminate_frame
  exact ⟨hw, hr, hc, hs, he, hk, hm⟩

/-- Accepting a command moves no port beyond the command taken. -/
theorem CommandNext.samePorts {s t : State} {c : Command} (h : CommandNext s c t) : s.SamePorts t := by
  cases h <;> exact ⟨rfl, rfl, rfl, rfl, rfl, rfl, rfl⟩

/-- Handling a byte moves no port beyond the byte pulled. -/
theorem ByteNext.samePorts {s t : State} {b : Byte} (h : ByteNext s b t) : s.SamePorts t := by
  cases h with
  | zero | more => exact ⟨rfl, rfl, rfl, rfl, rfl, rfl, rfl⟩
  | last k => exact s.lastGroup_samePorts b k

/-- An instruction that is taken moves no port; one that is not goes back to its own port, and no register changes. -/
theorem ExecNext.ports {s t : State} (h : ExecNext s t) :
    s.SamePorts t ∨ (s.SameBlock t ∧ ((∃ c, t = s.holdCommand c) ∨ ∃ b, t = s.leaveByte b)) := by
  cases h with
  | acceptDec | acceptEnc | raiseIdle | zero | more | endOfInput | none =>
    exact .inl ⟨rfl, rfl, rfl, rfl, rfl, rfl, rfl⟩
  | last b k => exact .inl (s.lastGroup_samePorts b k)
  | held c => exact .inr ⟨⟨rfl, rfl, rfl, rfl, rfl, rfl, rfl⟩, .inl ⟨c, rfl⟩⟩
  | left b => exact .inr ⟨⟨rfl, rfl, rfl, rfl, rfl, rfl, rfl⟩, .inr ⟨b, rfl⟩⟩

/-! ### RESULT and RESULT_VALID -/

/-- What an operation can do to RESULT and RESULT_VALID: keep both, clear both, or end a DEC with OK and deliver a
value (10_state.md R20, R27). -/
inductive ResultNext (s t : State) : Prop where
  | kept (hr : t.result = s.result) (hv : t.resultValid = s.resultValid)
  | cleared (hr : t.result = none) (hv : t.resultValid = false)
  | delivered (v : Nat) (hp : s.phase = .decPull) (hi : t.phase = .idle) (hs : t.status = .ok)
      (hr : t.result = some v) (hv : t.resultValid = true)

/-- Where an operation starts matters to RESULT by the block's registers only. -/
theorem ResultNext.of_sameBlock {s s' t : State} (h : ResultNext s' t) (hb : s.SameBlock s') : ResultNext s t := by
  cases h with
  | kept hr hv => exact .kept (hr.trans hb.result) (hv.trans hb.resultValid)
  | cleared hr hv => exact .cleared hr hv
  | delivered v hp hi hs hr hv => exact .delivered v (hb.phase.symm.trans hp) hi hs hr hv

/-- Termination delivers ACC or, with OVERFLOW, clears RESULT (40_decoder.md R111). -/
theorem State.terminate_resultNext {s : State} (hp : s.phase = .decPull) (u : State) : ResultNext s u.terminate := by
  rcases u.terminate_cases with ⟨-, h⟩ | ⟨-, h⟩ <;> rw [h]
  · exact .delivered u.acc hp rfl rfl rfl rfl
  · exact .cleared rfl rfl

theorem ExecNext.resultNext {s t : State} (h : ExecNext s t) : ResultNext s t := by
  cases h with
  | acceptDec | acceptEnc | raiseIdle | endOfInput => exact .cleared rfl rfl
  | held | more | left | none => exact .kept rfl rfl
  | zero hp => exact .delivered 0 hp rfl rfl rfl rfl
  | last b k hp => exact State.terminate_resultNext hp _

/-- Every acceptance of a command clears RESULT (10_state.md R27). -/
theorem CommandNext.result_cleared {s t : State} {c : Command} (h : CommandNext s c t) :
    t.result = none ∧ t.resultValid = false := by
  cases h <;> exact ⟨rfl, rfl⟩

theorem ByteNext.resultNext {s t : State} {b : Byte} (h : ByteNext s b t) (hp : s.phase = .decPull) :
    ResultNext s t := by
  cases h with
  | zero => exact .delivered 0 hp rfl rfl rfl rfl
  | more => exact .kept rfl rfl
  | last => exact State.terminate_resultNext hp _

theorem StepNext.resultNext {s t : State} (h : StepNext s t) : ResultNext s t := by
  cases h with
  | hold | pushLast | pushMore => exact .kept rfl rfl
  | reset | endOfInput => exact .cleared rfl rfl
  | command c rest t hr hp hc h => exact .cleared h.result_cleared.1 h.result_cleared.2
  | byte b rest t hr hp hs h =>
    exact (h.resultNext hp).of_sameBlock ⟨rfl, rfl, rfl, rfl, rfl, rfl, rfl⟩

/-- While RESULT_VALID is 0 a host read of RESULT is a host fault (70_reset_and_hazards.md R206). -/
theorem hostRead_result_of_not_valid {s : State} (h : s.resultValid = false) :
    hostRead .result s = .error .resultHoldsNoValue := by
  simp [hostRead, h]

/-! ### ACC and FIRST -/

/-- An accepted command starts a DEC, or leaves ACC and FIRST alone (10_state.md R23, R24). -/
theorem CommandNext.decPull_or_keeps {s t : State} {c : Command} (h : CommandNext s c t) :
    t.phase = .decPull ∨ (t.acc = s.acc ∧ t.first = s.first) := by
  cases h with
  | dec => exact .inl rfl
  | enc | negative | reserved => exact .inr ⟨rfl, rfl⟩

end Sys2Proof.Machine
end

section
/-! A step as the rules describe it (10_state.md R34): the instruction that a port word decodes to, and DecByte as one
piece (40_decoder.md R107). -/

namespace Sys2Proof.Machine

/-- A port word that decodes is run as its instruction. -/
theorem runWord_of_decode {x : PortWord} {s : State} {i : Instr} (h : decode s.width s.first x = .ok i) :
    runWord x s = exec i s := by
  simp [runWord, h]

/-- A port word whose run goes on has decoded to an instruction. -/
theorem runWord_next {x : PortWord} {s t : State} (h : runWord x s = .next t) :
    ∃ i, decode s.width s.first x = .ok i ∧ exec i s = .next t := by
  cases hd : decode s.width s.first x with
  | ok i => exact ⟨i, rfl, (runWord_of_decode hd).symm.trans h⟩
  | error e => simp [runWord, hd] at h

/-- The step of a pulling block at its source's next byte. -/
theorem step_of_byte {s : State} {b : Byte} {rest : List Byte} (hr : s.resetIn = false) (hp : s.phase = .decPull)
    (hs : s.src = b :: rest) : step s = runWord (.answer (.byte b)) { s with src := rest } := by
  rw [step_of_answer (a := .byte b) hr hp (by simp [State.sourceAnswer, hs])]
  simp [State.afterPull, hs]

/-- A pull from a source without bytes changes nothing. -/
theorem State.afterPull_of_nil {s : State} (hs : s.src = []) : s.afterPull = s := by
  cases s
  cases hs
  rfl

/-- The step of a pulling block at an ended source. END "removes nothing" (20_memory.md R57). -/
theorem step_of_end {s : State} (hr : s.resetIn = false) (hp : s.phase = .decPull) (hs : s.src = [])
    (he : s.srcEnd = true) : step s = runWord (.answer .fin) s := by
  rw [step_of_answer (a := .fin) hr hp (by simp [State.sourceAnswer, hs, he]), State.afterPull_of_nil hs]

/-- DecByte on a byte whose group ends at bit `k`: where SCAN finds it for a first byte, bit 6 for a later one
(40_decoder.md R109, R110). -/
theorem State.decByte_of_offset {s : State} {b : Byte} {k : Nat}
    (hfirst : s.first = true → scan (wirePayload b) = some k) (hlater : s.first = false → k = fullOffset) :
    s.decByte b = if wireMore b then s.takeGroup b k else (s.takeGroup b k).terminate := by
  cases hf : s.first with
  | true => simp [State.decByte, hf, hfirst hf]
  | false => simp [State.decByte, hf, hlater hf]

/-- What a pulled byte does is DecByte, written with SCAN (40_decoder.md R107 to R111). -/
theorem ByteNext.eq_decByte {s t : State} {b : Byte} (h : ByteNext s b t) : t = s.decByte b := by
  cases h with
  | zero hf hz =>
    have hnone : scan 0#7 = none := by decide
    simp [State.decByte, hf, hz, hnone]
  | more k _ hb hs hn => rw [State.decByte_of_offset hs hn, if_pos hb]
  | last k _ hb hs hn => rw [State.decByte_of_offset hs hn, if_neg (by simp [hb])]

/-- A pushing block goes on to what EncPush leaves. -/
theorem eq_encPush_of_step {s t : State} (hr : s.resetIn = false) (hp : s.phase = .encPush)
    (h : step s = .next t) : t = s.encPush := by
  cases (step_of_push hr hp).symm.trans h
  rfl

end Sys2Proof.Machine
end

section
/-! The host's moves at the ports (10_state.md R32). -/

namespace Sys2Proof.Machine

theorem State.withSource_frame {s t : State} {bs : List Byte} {fin : Bool} (h : s.withSource bs fin = .next t) :
    s.SameBlock t ∧ t.width = s.width := by
  unfold State.withSource at h
  split at h
  case isTrue => cases h
  case isFalse => cases h; exact ⟨⟨rfl, rfl, rfl, rfl, rfl, rfl, rfl⟩, rfl⟩

theorem State.withSink_frame {s t : State} {bs : List Byte} {room : SinkRoom} (h : s.withSink bs room = .next t) :
    s.SameBlock t ∧ t.width = s.width := by
  unfold State.withSink at h
  split at h
  case isTrue => cases h
  case isFalse => cases h; exact ⟨⟨rfl, rfl, rfl, rfl, rfl, rfl, rfl⟩, rfl⟩

/-- No move of the host changes a register of the block or W. -/
theorem hostMove_frame {m : HostMove} {s t : State} (h : hostMove m s = .next t) :
    s.SameBlock t ∧ t.width = s.width := by
  cases m with
  | offer | feed | endSource | resumeSource | grant | stall | assertReset =>
    cases h
    exact ⟨⟨rfl, rfl, rfl, rfl, rfl, rfl, rfl⟩, rfl⟩
  | connectSource | takeSource => exact State.withSource_frame h
  | connectSink | writeSink => exact State.withSink_frame h

end Sys2Proof.Machine
end

section
/-! The statements of 10_state.md. -/

namespace Sys2Proof.Proofs

open Sys2Proof.Machine

/-- Settles O27, by the ways a step can go on: each names its kind, and the ports show what it took. -/
theorem stepIsOneOfTheFour : Obligations.StepIsOneOfTheFour := by
  intro s t h
  cases step_next h with
  | reset hr => exact .inl ⟨hr, rfl⟩
  | command c rest t hr hp hc hn =>
    obtain ⟨i, hd, he⟩ := runWord_next ((step_of_command hr hp hc).symm.trans h)
    have ports := hn.samePorts
    obtain rfl : t.cmds = rest := ports.cmds
    exact .inr (.inl ⟨hr, hp, ⟨c, i, hc, hd, he⟩, ports.src, ports.srcEnd, ports.snk, ports.snkRoom⟩)
  | byte b rest t hr hp hs hn =>
    have ports := hn.samePorts
    obtain rfl : t.src = rest := ports.src
    exact .inr (.inr (.inl ⟨hr, hp, .inl ⟨b, hs, hn.eq_decByte⟩, ports.srcEnd, ports.cmds, ports.snk,
      ports.snkRoom⟩))
  | endOfInput hr hp hs he =>
    exact .inr (.inr (.inl ⟨hr, hp, .inr ⟨hs, he, rfl⟩, rfl, rfl, rfl, rfl⟩))
  | pushLast b hr hp ho ha =>
    exact .inr (.inr (.inr (.inl ⟨hr, hp, ha, eq_encPush_of_step hr hp h, ⟨b, ho, rfl⟩, rfl, rfl, rfl⟩)))
  | pushMore b c rest hr hp ho ha =>
    exact .inr (.inr (.inr (.inl ⟨hr, hp, ha, eq_encPush_of_step hr hp h, ⟨b, ho, rfl⟩, rfl, rfl, rfl⟩)))
  | hold hr hw => exact .inr (.inr (.inr (.inr ⟨hr, rfl, hw⟩)))

/-- Settles O9: of the three things an instruction can do to RESULT, only clearing takes RESULT_VALID from 1 to 0. -/
theorem clearedResultHoldsNoValue : Obligations.ClearedResultHoldsNoValue := by
  intro s t i h htv hsv
  refine ⟨?_, hostRead_result_of_not_valid htv⟩
  cases (exec_next h).resultNext with
  | kept _ hv => simp [hv, hsv] at htv
  | cleared hr _ => exact hr
  | delivered v _ _ _ _ hv => simp [hv] at htv

/-- Settles O30: outside DEC_PULL only an accepted command can change ACC or FIRST, and then it is DEC. -/
theorem onlyDecWritesAccAndFirst : Obligations.OnlyDecWritesAccAndFirst := by
  intro s t hr h hne
  cases step_next h with
  | command c rest t _ hp _ hn =>
    refine .inr ⟨hp, hn.decPull_or_keeps.resolve_right fun ⟨hacc, hfirst⟩ => ?_⟩
    exact hne.elim (· hacc) (· hfirst)
  | byte b rest t _ hp => exact .inl hp
  | endOfInput _ hp => exact .inl hp
  | reset hr' => simp [hr] at hr'
  | hold | pushLast | pushMore => simp at hne

/-- Settles O31: of the three things a step can do to RESULT, only a delivery gives it a value. -/
theorem onlyASuccessfulDecWritesResult : Obligations.OnlyASuccessfulDecWritesResult := by
  intro s t h hne
  cases (step_next h).resultNext with
  | kept hr hv => simp [hr, hv] at hne
  | cleared hr hv => simp [hr, hv] at hne
  | delivered v hp hi hs hr hv => exact ⟨hp, hi, hs, hv, by simp [hr]⟩

/-- Settles O33, by the ports of every next state of `exec`. -/
theorem instructionsLeaveThePortsAlone : Obligations.InstructionsLeaveThePortsAlone := by
  intro i s t h
  rcases (exec_next h).ports with hports | ⟨hb, ⟨c, rfl⟩ | ⟨b, rfl⟩⟩
  · exact ⟨hports.width, hports.resetIn, hports.srcEnd, hports.snk, hports.snkRoom,
      .inl ⟨hports.cmds, hports.src⟩⟩
  · exact ⟨rfl, rfl, rfl, rfl, rfl, .inr hb⟩
  · exact ⟨rfl, rfl, rfl, rfl, rfl, .inr hb⟩

/-- Settles O51, by the moves one by one; the invariant speaks of the registers and W only. -/
theorem hostMovesWriteNoRegister : Obligations.HostMovesWriteNoRegister := by
  intro m s t h
  obtain ⟨hb, hw⟩ := hostMove_frame h
  exact ⟨hb, hw, fun hi => hi.of_sameBlock hb hw⟩

/-- Settles O1, by the definition of the state after reset. -/
theorem resetStateHoldsTheResetValues : Obligations.ResetStateHoldsTheResetValues :=
  ⟨rfl, rfl, rfl, rfl, rfl, rfl, rfl⟩

/-- Settles O25, by what stands at the port that each phase reads. -/
theorem stepRunsTheDecodedInstruction : Obligations.StepRunsTheDecodedInstruction := by
  refine ⟨fun s c rest i hr hp hc hd => ?_, fun s b rest i hr hp hs hd => ?_, fun s hr hp hs he => ?_⟩
  · rw [step_of_command hr hp hc]
    exact runWord_of_decode hd
  · rw [step_of_byte hr hp hs]
    exact runWord_of_decode hd
  · rw [step_of_end hr hp hs he]
    exact runWord_of_decode rfl

/-- Settles O35, by what is enough for the invariant of an idle block. -/
theorem invHoldsAfterReset : Obligations.InvHoldsAfterReset :=
  State.Inv.of_idle rfl rfl rfl (by decide) rfl fun _ h => nomatch h

/-- Settles O49, by the two values of PHASE = IDLE. -/
theorem busyMeansNotIdle : Obligations.BusyMeansNotIdle := by
  intro s
  by_cases h : s.phase = .idle
  · simp [hostRead, h, s.busy_eq_false.2 h]
  · simp [hostRead, h, s.busy_eq_true.2 h]

end Sys2Proof.Proofs
end

section
/-! What a busy block shows when its operation ends (20_memory.md R61 item 4). -/

namespace Sys2Proof.Machine

/-- Termination ends with OK and a valid RESULT, or with OVERFLOW and none (40_decoder.md R111). -/
theorem State.terminate_shows (s : State) :
    (s.terminate.status = .ok ∧ s.terminate.resultValid = true) ∨
    (s.terminate.status = .overflow ∧ s.terminate.resultValid = false) := by
  rcases s.terminate_cases with ⟨-, h⟩ | ⟨-, h⟩ <;> simp [h]

/-- A pulled byte that ends its DEC ends it with OK and a valid RESULT, or with OVERFLOW and none. -/
theorem ByteNext.shows_of_idle {s t : State} {b : Byte} (h : ByteNext s b t) (hp : s.phase = .decPull)
    (ht : t.phase = .idle) :
    (t.status = .ok ∧ t.resultValid = true) ∨ (t.status = .overflow ∧ t.resultValid = false) := by
  cases h with
  | zero => exact .inl ⟨rfl, rfl⟩
  | more => simp [hp] at ht
  | last k => exact (s.takeGroup b k).terminate_shows

/-- A step by which BUSY falls, other than a reset, ends a DEC with OK and a valid RESULT, a DEC with an exception and
none, or an ENC with OK, where RESULT_VALID stays as it was. -/
theorem StepNext.shows_when_busy_falls {s t : State} (h : StepNext s t) (hr : s.resetIn = false)
    (hs : s.phase ≠ .idle) (ht : t.phase = .idle) :
    (s.phase = .decPull ∧ t.status = .ok ∧ t.resultValid = true) ∨
    (s.phase = .decPull ∧ (t.status = .unexpectedEnd ∨ t.status = .overflow) ∧ t.resultValid = false) ∨
    (s.phase = .encPush ∧ t.status = .ok ∧ t.resultValid = s.resultValid) := by
  cases h with
  | hold => exact absurd ht hs
  | reset hr' => simp [hr] at hr'
  | command c rest t _ hp => exact absurd hp hs
  | byte b rest t _ hp _ hn =>
    rcases hn.shows_of_idle hp ht with ⟨hok, hv⟩ | ⟨hover, hv⟩
    · exact .inl ⟨hp, hok, hv⟩
    · exact .inr (.inl ⟨hp, .inr hover, hv⟩)
  | endOfInput _ hp => exact .inr (.inl ⟨hp, .inl rfl, rfl⟩)
  | pushLast b _ hp => exact .inr (.inr ⟨hp, rfl, rfl⟩)
  | pushMore => exact absurd ht hs

end Sys2Proof.Machine
end

section
/-! The statements of 20_memory.md. -/

namespace Sys2Proof.Proofs

open Sys2Proof.Machine

/-- Settles O32, by the ways a step can go on: only a pulled byte moves the source, only a push moves the sink. -/
theorem onlyDecPullsAndOnlyEncPushes : Obligations.OnlyDecPullsAndOnlyEncPushes := by
  intro s t h
  cases step_next h with
  | hold | reset | endOfInput => exact ⟨fun hne => absurd rfl hne, fun hne => absurd rfl hne⟩
  | command c rest t _ _ _ hn =>
    exact ⟨fun hne => absurd hn.samePorts.src hne, fun hne => absurd hn.samePorts.snk hne⟩
  | byte b rest t hr hp hs hn =>
    have ports := hn.samePorts
    obtain rfl : t.src = rest := ports.src
    exact ⟨fun _ => ⟨hp, hr, b, hs⟩, fun hne => absurd ports.snk hne⟩
  | pushLast b hr hp ho | pushMore b _ _ hr hp ho =>
    exact ⟨fun hne => absurd rfl hne, fun _ => ⟨hp, hr, b, ho, rfl⟩⟩

/-- Settles O37: the invariant after the step keeps a block quiet that is still busy, and the invariant before it says
that an ENC ends without a RESULT. -/
theorem resultsAppearWhenBusyFalls : Obligations.ResultsAppearWhenBusyFalls := by
  intro s t hi hr hb h
  have hs := s.busy_eq_true.1 hb
  by_cases ht : t.phase = .idle
  · refine .inr ⟨t.busy_eq_false.2 ht, ?_⟩
    rcases (step_next h).shows_when_busy_falls hr hs ht with ⟨hp, hok, hv⟩ | ⟨hp, hex | hex, hv⟩ | ⟨hp, hok, hv⟩
    · simp [hp, hok, hv]
    · simp [hex, hv]
    · simp [hex, hv]
    · simp [hp, hok, hv, (hi.quiet hs).2.2]
  · obtain ⟨hstatus, hresult, hvalid⟩ := (step_inv hi h).quiet ht
    exact .inl ⟨t.busy_eq_true.2 ht, hstatus, hvalid, hresult⟩

end Sys2Proof.Proofs
end

section
/-! The decoder and the encoder of instructions against each other: commands by their word, source answers by the class
table (30_encoding.md R76 to R81). -/

namespace Sys2Proof.Machine

/-! ### Commands -/

/-- Command word 0x01 with a magnitude the port carries (30_encoding.md R77, R78). -/
theorem decode_enc {w : Width} {vmag : Nat} (h : w.fits vmag = true) (first vsign : Bool) :
    decode w first (.cmd ⟨0x01#8, vsign, vmag⟩) = .ok (.enc vsign vmag) := by
  simp [decode, decodeCommand, h]

/-- Command word 0x01 with a magnitude of 2^W or more (30_encoding.md R78). -/
theorem decode_enc_of_not_fits {w : Width} {vmag : Nat} (h : w.fits vmag = false) (first vsign : Bool) :
    decode w first (.cmd ⟨0x01#8, vsign, vmag⟩) = .error .operandTooWide := by
  simp [decode, decodeCommand, h]

/-- Command word 0x02, whatever the operand (30_encoding.md R77, R78). -/
theorem decode_dec (w : Width) (first vsign : Bool) (vmag : Nat) :
    decode w first (.cmd ⟨0x02#8, vsign, vmag⟩) = .ok .dec := rfl

/-- Every other command word, whatever the operand (30_encoding.md R79). -/
theorem decode_reserved {word : Byte} (h1 : word ≠ 0x01#8) (h2 : word ≠ 0x02#8) (w : Width) (first vsign : Bool)
    (vmag : Nat) : decode w first (.cmd ⟨word, vsign, vmag⟩) = .ok (.reserved word) := by
  simp [decode, decodeCommand, h1, h2]

/-- A command that decodes gives a well-formed instruction, which is encoded with the same word, and ENC with the same
operand (30_encoding.md R78, R79). -/
theorem encode_of_decode_cmd {w : Width} {first : Bool} {c : Command} {i : Instr}
    (h : decode w first (.cmd c) = .ok i) :
    i.wf w = true ∧ ∃ c', encode i = .cmd c' ∧ c'.word = c.word ∧ (c.word = 0x01#8 → c' = c) := by
  obtain ⟨word, vsign, vmag⟩ := c
  by_cases h1 : word = 0x01#8
  · subst h1
    cases hf : w.fits vmag with
    | false => simp [decode_enc_of_not_fits hf] at h
    | true =>
      rw [decode_enc hf] at h
      cases h
      exact ⟨hf, _, rfl, rfl, fun _ => rfl⟩
  · by_cases h2 : word = 0x02#8
    · subst h2
      rw [decode_dec] at h
      cases h
      exact ⟨rfl, _, rfl, rfl, fun hw => absurd hw h1⟩
    · rw [decode_reserved h1 h2] at h
      cases h
      exact ⟨by simp [Instr.wf, h1, h2], _, rfl, rfl, fun hw => absurd hw h1⟩

/-! ### Source answers -/

/-- A byte is decoded to its class (30_encoding.md R76, R81). -/
theorem decode_byte {first : Bool} {b : Byte} {i : Instr} (h : classify first b = some i) (w : Width) :
    decode w first (.answer (.byte b)) = .ok i := by
  simp [decode, decodeAnswer, h]

/-- The byte of a class is found in that class under the FIRST the class needs, so no two classes of one phase share a
byte (30_encoding.md R76). -/
theorem classify_of_encode {i : Instr} {b : Byte} {first : Bool} (he : encode i = .answer (.byte b))
    (hf : i.firstNeeded = some first) : classify first b = some i := by
  cases i with
  | enc | dec | reserved | decEnd => simp [encode] at he
  | decFZero p | decFK6Last p | decFK6More p | decFK5Last p | decFK5More p | decFK4Last p | decFK4More p
  | decFK3Last p | decFK3More p | decFK2Last p | decFK2More p | decFK1Last p | decFK1More p | decNLast p
  | decNMore p =>
    cases he
    cases hf
    revert p
    decide
  | decFK0Last | decFK0More =>
    cases he
    cases hf
    decide

/-- An instruction that a source answer carries is well formed, its operand having exactly the row's free bits. -/
theorem wf_of_encode_answer {i : Instr} {a : Answer} (h : encode i = .answer a) (w : Width) : i.wf w = true := by
  cases i with
  | enc | dec | reserved => simp [encode] at h
  | _ => rfl

/-- A byte's class needs a value of FIRST. -/
theorem firstNeeded_of_encode_byte {i : Instr} {b : Byte} (h : encode i = .answer (.byte b)) :
    ∃ first, i.firstNeeded = some first := by
  cases i with
  | enc | dec | reserved | decEnd => simp [encode] at h
  | _ => exact ⟨_, rfl⟩

theorem underFirst_iff {i : Instr} {f first : Bool} (h : i.firstNeeded = some f) :
    i.underFirst first = true ↔ f = first := by
  simp [Instr.underFirst, h]

/-- Only DEC.END is encoded as END. -/
theorem eq_decEnd_of_encode {i : Instr} (h : encode i = .answer .fin) : i = .decEnd := by
  cases i with
  | decEnd => rfl
  | _ => simp [encode] at h

/-- A source answer that decodes gives an instruction of this FIRST, which is encoded as that answer. -/
theorem encode_of_decode_answer {w : Width} {first : Bool} {a : Answer} {i : Instr}
    (h : decode w first (.answer a) = .ok i) : i.underFirst first = true ∧ encode i = .answer a := by
  cases a with
  | fin =>
    cases h
    exact ⟨rfl, rfl⟩
  | byte b =>
    obtain ⟨j, hc, he, hf⟩ := classify_some first b
    rw [decode_byte hc] at h
    cases h
    exact ⟨(underFirst_iff hf).2 rfl, he⟩

/-- An instruction of this FIRST is what its source answer decodes to. -/
theorem decode_of_encode_answer {i : Instr} {a : Answer} {first : Bool} (he : encode i = .answer a)
    (hu : i.underFirst first = true) (w : Width) : decode w first (.answer a) = .ok i := by
  cases a with
  | fin =>
    cases eq_decEnd_of_encode he
    rfl
  | byte b =>
    obtain ⟨f, hf⟩ := firstNeeded_of_encode_byte he
    cases (underFirst_iff hf).1 hu
    exact decode_byte (classify_of_encode he hf) w

/-- Every byte matches exactly one row of the class table in each phase (30_encoding.md R76). -/
theorem one_row_hits : ∀ (first : Bool) (b : Byte),
    (classRows.filter fun r => r.first == first && r.hits b).length = 1 := by
  decide

end Sys2Proof.Machine
end

section
/-! The statements of 30_encoding.md about the decoder and the encoder of instructions (R76 to R79, R81). -/

namespace Sys2Proof.Proofs

open Sys2Proof.Machine

/-- Settles O54, by the word of a command and the class of a byte. -/
theorem decodeAfterEncode : Obligations.DecodeAfterEncode := by
  intro w first i hwf hu
  cases he : encode i with
  | answer a => exact decode_of_encode_answer he hu w
  | cmd c =>
    cases i with
    | enc vsign vmag =>
      cases he
      exact decode_enc hwf first vsign
    | dec =>
      cases he
      exact decode_dec w first false 0
    | reserved word =>
      cases he
      obtain ⟨h1, h2⟩ : word ≠ 0x01#8 ∧ word ≠ 0x02#8 := by simpa [Instr.wf] using hwf
      exact decode_reserved h1 h2 w first false 0
    | _ => simp [encode] at he

/-- Settles O55, by the port the decoded word stands at. -/
theorem encodeAfterDecode : Obligations.EncodeAfterDecode := by
  intro w first i
  refine ⟨fun a h => ?_, fun c h => encode_of_decode_cmd h⟩
  obtain ⟨hu, he⟩ := encode_of_decode_answer h
  exact ⟨wf_of_encode_answer he w, hu, he⟩

/-- Settles O56, by the class table row by row, and the class every byte has. -/
theorem byteClassesPartition : Obligations.ByteClassesPartition := by
  intro first b
  refine ⟨one_row_hits first b, fun w => ?_⟩
  obtain ⟨i, hc, -⟩ := classify_some first b
  exact ⟨i, decode_byte hc w⟩

/-- Settles O57: a command by its word, a byte by its class, END by itself. -/
theorem writtenWordsDecode : Obligations.WrittenWordsDecode :=
  ⟨decode_enc rfl true true, decode_dec .inf true true 300, decode_reserved (by decide) (by decide) .inf true false 0,
    decode_byte (by decide) .inf, decode_byte (by decide) .inf, decode_byte (by decide) .inf,
    decode_byte (by decide) .inf, decode_byte (by decide) .inf, rfl⟩

end Sys2Proof.Proofs
end

section
/-! The commands that are answered at once or not at all: a reserved word and an ENC operand that the port cannot carry
(30_encoding.md R78, R79). -/

namespace Sys2Proof.Machine

/-- A reserved word at an idle block raises ILLEGAL_COMMAND (30_encoding.md R79). -/
theorem exec_reserved_of_idle {s : State} (hp : s.phase = .idle) (word : Byte) :
    exec (.reserved word) s = .next (s.raise .illegalCommand) := by
  simp [exec, execReserved, hp]

/-- A reserved word at a busy block stays at the port (70_reset_and_hazards.md R205). -/
theorem exec_reserved_of_busy {s : State} (hp : s.phase ≠ .idle) (word : Byte) :
    exec (.reserved word) s = .next (s.holdCommand ⟨word, false, 0⟩) := by
  simp [exec, execReserved, hp]

/-- A port word that does not decode is refused. -/
theorem runWord_of_error {x : PortWord} {s : State} {e : DecodeError} (h : decode s.width s.first x = .error e) :
    runWord x s = .refused (refusalOf e) := by
  simp [runWord, h]

/-- Where the port can carry every offered command, it can carry an ENC's magnitude (30_encoding.md R78). -/
theorem State.fits_of_offersFit {s : State} {c : Command} {rest : List Command} (h : s.offersFit = true)
    (hc : s.cmds = c :: rest) (hw : c.word = 0x01#8) : s.width.fits c.vmag = true := by
  simp only [State.offersFit, hc, List.all_cons, Bool.and_eq_true] at h
  simpa [Command.wf, hw] using h.1

end Sys2Proof.Machine
end

section
/-! The statements of 30_encoding.md about commands at their port (R78, R79). -/

namespace Sys2Proof.Proofs

open Sys2Proof.Machine

/-- Settles O28: a step goes on, or is refused for an ENC operand that the port cannot carry. -/
theorem onlyAnOversizeOperandStopsAStep : Obligations.OnlyAnOversizeOperandStopsAStep := by
  refine ⟨fun s f h => ?_, fun s r h => ?_, fun s hfit => ?_⟩
  · rcases step_total s with ⟨t, ht, -⟩ | ⟨ht, -⟩
    · cases ht.symm.trans h
    · cases ht.symm.trans h
  · rcases step_total s with ⟨t, ht, -⟩ | ⟨ht, -, hp, ⟨word, vsign, vmag⟩, rest, hc, hw, hf⟩
    · cases ht.symm.trans h
    · cases ht.symm.trans h
      cases hw
      exact ⟨rfl, hp, vsign, vmag, rest, hc, hf⟩
  · rcases step_total s with ⟨t, ht, -⟩ | ⟨-, -, -, c, rest, hc, hw, hf⟩
    · exact ⟨t, ht⟩
    · simp [State.fits_of_offersFit hfit hc hw] at hf

/-- Settles O7, by the two answers of a reserved word and its decoding. -/
theorem reservedWordIsIllegalCommand : Obligations.ReservedWordIsIllegalCommand := by
  intro s word h1 h2
  refine ⟨fun hp ho => ?_, decode_reserved h1 h2, fun t hp h => ?_⟩
  · exact ⟨_, exec_reserved_of_idle hp word, ⟨rfl, rfl, rfl, ho.symm, rfl, rfl⟩, ⟨rfl, rfl, rfl, rfl, rfl, rfl, rfl⟩⟩
  · cases (exec_reserved_of_busy hp word).symm.trans h
    exact ⟨rfl, rfl, rfl, rfl, rfl, rfl, rfl⟩

/-- Settles O8, by the operand's definition and the decoding of the words 0x01 and 0x02. -/
theorem operandAssembly : Obligations.OperandAssembly := by
  refine ⟨fun m => ⟨rfl, rfl⟩, rfl, fun s vsign vmag rest hr hp hc hf => ?_, decode_dec⟩
  rw [step_of_command hr hp hc]
  exact runWord_of_error (s := { s with cmds := rest }) (decode_enc_of_not_fits hf s.first vsign)

end Sys2Proof.Proofs
end

section
/-! A run of DecByte steps over the bytes of one value with a first payload other than zero: ACC is plain base-128
(40_decoder.md R109 to R112, R114). -/

namespace Sys2Proof.Machine

/-! ### The bits above SCAN's -/

/-- Above the bit that the scan of the low `n` bits finds, those bits are 0 (40_decoder.md R100). -/
theorem lt_of_scanBelow {p : Payload} {k : Nat} : ∀ {n : Nat}, p.toNat < 2 ^ n → scanBelow p n = some k →
    k < n ∧ p.toNat < 2 ^ (k + 1) := by
  intro n
  induction n with
  | zero => intro _ h; cases h
  | succ n ih =>
    intro hlt h
    rw [scanBelow] at h
    split at h
    case isTrue =>
      cases h
      exact ⟨Nat.lt_succ_self _, hlt⟩
    case isFalse hbit =>
      have hlow : p.toNat < 2 ^ n := by
        refine Nat.lt_pow_two_of_testBit _ fun i hi => ?_
        rcases hi.eq_or_lt with rfl | hi
        · rwa [Bool.not_eq_true] at hbit
        · exact Nat.testBit_lt_two_pow (hlt.trans_le (Nat.pow_le_pow_right (by decide) hi))
      obtain ⟨hk, hp⟩ := ih hlow h
      exact ⟨Nat.lt_succ_of_lt hk, hp⟩

/-- A first byte's low bits, up to the one that SCAN finds, are its whole payload (30_encoding.md R80). -/
theorem lowBits_of_scan {b : Byte} {k : Nat} (h : scan (wirePayload b) = some k) : lowBits b k = b.toNat % 128 := by
  obtain ⟨hk, hlt⟩ := lt_of_scanBelow (n := 7) (wirePayload b).isLt h
  rw [wirePayload_toNat] at hlt
  have hdvd : 2 ^ (k + 1) ∣ 128 := Nat.pow_dvd_pow 2 (n := 7) hk
  rw [lowBits, ← Nat.mod_mod_of_dvd b.toNat hdvd, Nat.mod_eq_of_lt hlt]

/-! ### The steps of one value -/

/-- The pulling block after it has pulled `bs` and left `rest`, the bits of each payload taken below ACC. -/
def State.pulled (bs rest : List Byte) (s : State) : State :=
  { s with src := rest, first := false, acc := plainValue s.acc bs }

/-- `b` is no zero-payload first byte, and ACC is 0 while a first byte is awaited (40_decoder.md R108, R109). -/
def State.TakesGroup (s : State) (b : Byte) : Prop := s.first = true → s.acc = 0 ∧ wirePayload b ≠ 0#7

@[simp] theorem State.pulled_acc (bs rest : List Byte) (s : State) :
    (s.pulled bs rest).acc = plainValue s.acc bs := rfl

theorem State.takesGroup_pulled (bs rest : List Byte) (s : State) (b : Byte) : (s.pulled bs rest).TakesGroup b := by
  rintro ⟨⟩

/-- ACCUM with the whole payload, seven bits or those of a first byte, is one step of plain base-128. -/
theorem State.accum_of_takesGroup {s : State} {b : Byte} {k : Nat} (hg : s.TakesGroup b)
    (hn : s.first = false → k = 6) (hl : lowBits b k = b.toNat % 128) : accum s.acc b k = plainValue s.acc [b] := by
  rw [accum_eq_add, hl]
  cases hf : s.first with
  | true => simp [(hg hf).1, plainValue]
  | false => simp [hn hf, plainValue]

/-- A pulled byte whose group is taken continues the value or ends it, by its continuation bit
(40_decoder.md R109, R110). -/
theorem step_of_group {s : State} {b : Byte} {rest : List Byte} (hr : s.resetIn = false) (hp : s.phase = .decPull)
    (hs : s.src = b :: rest) (hg : s.TakesGroup b) :
    step s = .next (if wireMore b then s.pulled [b] rest else (s.pulled [b] rest).terminate) := by
  obtain ⟨t, ht, hb⟩ := runByte b { s with src := rest } hp
  rw [step_of_byte hr hp hs, ht]
  cases hb with
  | zero hf hz => exact absurd hz (hg hf).2
  | more k _ hm _ hn hl =>
    simp [State.takeGroup, State.pulled, hm, State.accum_of_takesGroup hg hn hl]
  | last k _ hm _ hn hl =>
    simp [State.takeGroup, State.pulled, hm, State.accum_of_takesGroup hg hn hl]

/-- The run over the bytes of one value ends in its termination, with plain base-128 in ACC (40_decoder.md R112,
R114). -/
theorem run_of_marked : ∀ {bs rest : List Byte} {s : State}, s.resetIn = false → s.phase = .decPull →
    s.src = bs ++ rest → marked bs = true → (∀ b, bs.head? = some b → s.TakesGroup b) →
    core.run bs.length s = .next (s.pulled bs rest).terminate := by
  intro bs rest
  induction bs with
  | nil => intro s _ _ _ hm; simp [marked] at hm
  | cons b bs ih =>
    intro s hr hp hs hm hg
    have hstep := step_of_group hr hp hs (hg b rfl)
    cases bs with
    | nil =>
      have hb : wireMore b = false := by simpa [marked] using hm
      rw [hb] at hstep
      exact run_succ 0 hstep
    | cons c cs =>
      obtain ⟨hb, hm⟩ : wireMore b = true ∧ marked (c :: cs) = true := by simpa [marked] using hm
      rw [hb] at hstep
      exact (run_succ _ hstep).trans (ih hr hp rfl hm fun d _ => s.takesGroup_pulled _ _ d)

/-! ### Plain base-128 as a sum -/

/-- Each payload at its group position (30_encoding.md R80). -/
theorem plainValue_eq_sum (acc : Nat) (bs : List Byte) :
    plainValue acc bs = acc * 2 ^ (7 * bs.length) +
      ∑ i ∈ Finset.range bs.length, (bs.getD i 0#8).toNat % 128 * 2 ^ (7 * (bs.length - 1 - i)) := by
  induction bs generalizing acc with
  | nil => simp [plainValue]
  | cons b bs ih =>
    have hshift (i : Nat) : bs.length - 1 - i = bs.length - (i + 1) := by omega
    rw [plainValue, ih, List.length_cons, Finset.sum_range_succ']
    simp only [List.getD_cons_succ, List.getD_cons_zero, hshift, Nat.add_sub_cancel, Nat.sub_zero]
    ring

end Sys2Proof.Machine
end

section
/-! The statement of 30_encoding.md about the assembled value (R80). -/

namespace Sys2Proof.Proofs

open Sys2Proof.Machine Sys2Proof.Claims

/-- Settles O43, by the run over the value's bytes: ACC is plain base-128, which is the sum. -/
theorem assembledValueIsTheSumOfGroups : Obligations.AssembledValueIsTheSumOfGroups := by
  refine ⟨fun s b p rest hat hs hb hm => ?_, fun b k h => lowBits_of_scan h⟩
  have hg (c : Byte) (hc : (b :: p).head? = some c) : s.TakesGroup c := by
    cases hc
    exact fun _ => ⟨hat.acc, hb⟩
  obtain ⟨-, hacc, -, hphase, -⟩ := (s.pulled (b :: p) rest).terminate_frame
  refine ⟨_, run_of_marked hat.resetIn hat.phase hs hm hg, hphase, ?_⟩
  rw [hacc, State.pulled_acc, hat.acc, plainValue_eq_sum, Nat.zero_mul, Nat.zero_add]

end Sys2Proof.Proofs
end

section
/-! The assembler's lines by their words (30_encoding.md R82): what parts the words, and which lines mean the same. -/

namespace Sys2Proof.Machine

open Sys2Proof.Claims

/-! ### The words of a line -/

/-- Characters that make one word: no blank, no tab, no start of a comment (log 17). -/
abbrev WordChars (m : List Char) : Prop := ∀ c ∈ m, c ≠ ' ' ∧ c ≠ '\t' ∧ c ≠ ';'

/-- A piece goes on while no separator comes. -/
theorem asmPieces_cons {sep : Char → Bool} {c : Char} (h : sep c = false) {cs p : List Char} {ps : List (List Char)}
    (hcs : asmPieces sep cs = p :: ps) : asmPieces sep (c :: cs) = (c :: p) :: ps := by
  simp [asmPieces, h, hcs]

/-- Characters without a separator are one piece. -/
theorem asmPieces_of_not_sep {sep : Char → Bool} {m : List Char} (h : ∀ c ∈ m, sep c = false) :
    asmPieces sep m = [m] := by
  induction m with
  | nil => rfl
  | cons c m ih =>
    obtain ⟨hc, hm⟩ := List.forall_mem_cons.1 h
    exact asmPieces_cons hc (ih hm)

/-- The first separator ends the first piece. -/
theorem asmPieces_append_sep {sep : Char → Bool} {m : List Char} (h : ∀ c ∈ m, sep c = false) {d : Char}
    (hd : sep d = true) (cs : List Char) : asmPieces sep (m ++ d :: cs) = m :: asmPieces sep cs := by
  induction m with
  | nil => simp [asmPieces, hd]
  | cons c m ih =>
    obtain ⟨hc, hm⟩ := List.forall_mem_cons.1 h
    exact asmPieces_cons hc (ih hm)

theorem WordChars.not_sep {m : List Char} (h : WordChars m) : ∀ c ∈ m, (c == ' ' || c == '\t') = false := by
  intro c hc
  obtain ⟨hblank, htab, -⟩ := h c hc
  simp [hblank, htab]

theorem WordChars.not_comment {m : List Char} (h : WordChars m) : ∀ c ∈ m, (c != ';') = true := by
  intro c hc
  obtain ⟨-, -, hsemi⟩ := h c hc
  simp [hsemi]

/-- A comment adds no word. -/
theorem asmWords_comment (cs ds : List Char) : asmWords (cs ++ ';' :: ds) = asmWords cs := by
  have hline : (cs ++ ';' :: ds).takeWhile (· != ';') = cs.takeWhile (· != ';') := by
    induction cs with
    | nil => rfl
    | cons c cs ih => simp [List.takeWhile_cons, ih]
  rw [asmWords, hline, asmWords]

/-- A blank or tab before the first word means nothing (log 17). -/
theorem asmWords_blank_cons {d : Char} (hd : d = ' ' ∨ d = '\t') (cs : List Char) :
    asmWords (d :: cs) = asmWords cs := by
  rcases hd with rfl | rfl <;> simp [asmWords, asmPieces]

/-- Blanks and tabs alone are no word (log 17). -/
theorem asmWords_blanks {bs : List Char} (h : ∀ c ∈ bs, c = ' ' ∨ c = '\t') : asmWords bs = [] := by
  induction bs with
  | nil => rfl
  | cons c bs ih =>
    obtain ⟨hc, hbs⟩ := List.forall_mem_cons.1 h
    rw [asmWords_blank_cons hc, ih hbs]

/-- One word. -/
theorem asmWords_word {m : List Char} (hne : m ≠ []) (hm : WordChars m) : asmWords m = [m] := by
  rw [asmWords, List.takeWhile_eq_self_iff.2 hm.not_comment, asmPieces_of_not_sep hm.not_sep]
  simp [hne]

/-- A word before a blank or a tab, and the words after it. -/
theorem asmWords_word_append {m : List Char} (hne : m ≠ []) (hm : WordChars m) {d : Char} (hd : d = ' ' ∨ d = '\t')
    (cs : List Char) : asmWords (m ++ d :: cs) = m :: asmWords cs := by
  have hsep : (d == ' ' || d == '\t') = true := by simpa using hd
  have hsemi : (d != ';') = true := by rcases hd with rfl | rfl <;> decide
  rw [asmWords, List.takeWhile_append_of_pos hm.not_comment, List.takeWhile_cons_of_pos (p := (· != ';')) hsemi,
    asmPieces_append_sep hm.not_sep hsep, List.filter_cons_of_pos (by simpa using hne), ← asmWords]

/-- Blanks and tabs after a word mean nothing (log 17). -/
theorem asmWords_word_blanks {m bs : List Char} (hne : m ≠ []) (hm : WordChars m) (h : ∀ c ∈ bs, c = ' ' ∨ c = '\t') :
    asmWords (m ++ bs) = [m] := by
  cases bs with
  | nil => rw [List.append_nil, asmWords_word hne hm]
  | cons d bs =>
    obtain ⟨hd, hbs⟩ := List.forall_mem_cons.1 h
    rw [asmWords_word_append hne hm hd, asmWords_blanks hbs]

/-- Two words with a blank between them. -/
theorem asmWords_pair {m a : List Char} (hm : m ≠ []) (hmc : WordChars m) (ha : a ≠ []) (hac : WordChars a) :
    asmWords (m ++ ' ' :: a) = [m, a] := by
  rw [asmWords_word_append hm hmc (.inl rfl), asmWords_word ha hac]

/-! ### A line by its words -/

/-- The names that are no command's (30_encoding.md R82, R83). -/
def directiveNames : List (List Char) :=
  [['.', 'w', 'o', 'r', 'd'], ['.', 'w', 'i', 'd', 't', 'h'], ['.', 's', 'o', 'u', 'r', 'c', 'e'],
    ['.', 's', 'i', 'n', 'k']]

/-- What a line means depends on its words alone. -/
theorem asmLine_congr {cs ds : List Char} (h : asmWords cs = asmWords ds) : asmLine cs = asmLine ds := by
  rw [asmLine, h, asmLine]

/-- A line of two words, `.source` apart. -/
theorem asmLine_pair {cs m a : List Char} (h : asmWords cs = [m, a]) (hm : m ≠ ['.', 's', 'o', 'u', 'r', 'c', 'e']) :
    asmLine cs = asmPair m a := by
  simp [asmLine, h, hm]

/-- A line that is one of the names of DEC. -/
theorem asmLine_dec {cs m : List Char} (h : asmWords cs = [m]) (hm : asmIsDec m = true) :
    asmLine cs = .ok (.command ⟨0x02#8, false, 0⟩) := by
  simp [asmLine, h, hm]

/-- `m` is a name of ENC (`enc = true`) or of DEC, one word and no directive's name. -/
structure CommandName (m : List Char) (enc : Bool) : Prop where
  ne_nil : m ≠ []
  chars : WordChars m
  isEnc : asmIsEnc m = enc
  isDec : asmIsDec m = !enc
  not_directive : m ∉ directiveNames

theorem commandName_of_encNames : ∀ m ∈ encNames, CommandName m true := by
  intro m hm
  simp only [encNames, List.mem_cons, List.not_mem_nil, or_false] at hm
  rcases hm with rfl | rfl | rfl <;> exact ⟨by simp, by simp [WordChars], rfl, rfl, by simp [directiveNames]⟩

theorem commandName_of_decNames : ∀ m ∈ decNames, CommandName m false := by
  intro m hm
  simp only [decNames, List.mem_cons, List.not_mem_nil, or_false] at hm
  rcases hm with rfl | rfl | rfl <;> exact ⟨by simp, by simp [WordChars], rfl, rfl, by simp [directiveNames]⟩

theorem CommandName.ne_source {m : List Char} {enc : Bool} (h : CommandName m enc) :
    m ≠ ['.', 's', 'o', 'u', 'r', 'c', 'e'] := by
  rintro rfl
  exact h.not_directive (by simp [directiveNames])

/-- Two names of one command mean the same before the same text: alone, with one word, and with more. -/
theorem asmLine_same_command {m m' : List Char} {enc : Bool} (h : CommandName m enc) (h' : CommandName m' enc)
    (cs : List Char) : asmLine (m ++ ' ' :: cs) = asmLine (m' ++ ' ' :: cs) := by
  have hwords := asmWords_word_append h.ne_nil h.chars (.inl rfl) cs
  have hwords' := asmWords_word_append h'.ne_nil h'.chars (.inl rfl) cs
  obtain ⟨-, -, henc, hdec, hdir⟩ := h
  obtain ⟨-, -, henc', hdec', hdir'⟩ := h'
  simp only [directiveNames, List.mem_cons, List.not_mem_nil, or_false, not_or] at hdir hdir'
  obtain ⟨hword, hwidth, hsource, hsink⟩ := hdir
  obtain ⟨hword', hwidth', hsource', hsink'⟩ := hdir'
  rcases hps : asmWords cs with _ | ⟨a, _ | ⟨b, ps⟩⟩ <;> rw [hps] at hwords hwords'
  · simp [asmLine, hwords, hwords', hdec, hdec', hsink, hsink']
  · rw [asmLine_pair hwords hsource, asmLine_pair hwords' hsource']
    simp [asmPair, henc, henc', hword, hword', hwidth, hwidth']
  · simp [asmLine, hwords, hwords', hsource, hsource']

/-- ENC with an integer (30_encoding.md R82). -/
theorem asmPair_enc {m a : List Char} {vsign : Bool} {vmag : Nat} (hm : asmIsEnc m = true)
    (ha : asmInt a = some (vsign, vmag)) : asmPair m a = .ok (.command ⟨0x01#8, vsign, vmag⟩) := by
  simp [asmPair, hm, ha]

/-- `.word` with a byte (30_encoding.md R82). -/
theorem asmPair_word {a : List Char} {b : Byte} (ha : asmByte a = some b) :
    asmPair ['.', 'w', 'o', 'r', 'd'] a = .ok (.command ⟨b, false, 0⟩) := by
  simp [asmPair, asmIsEnc, ha]

/-! ### Numbers -/

/-- A digit character is the digit, in both bases of `<int>` (30_encoding.md R82). -/
theorem asmDigit_dec : ∀ d : Fin 10, asmDigit 10 (Nat.digitChar d.val) = some d.val := by
  decide

theorem asmDigit_hex : ∀ d : Fin 16, asmDigit 16 (Nat.digitChar d.val) = some d.val := by
  decide

theorem asmDigit_hex_upper : ∀ d : Fin 16, asmDigit 16 (Nat.digitChar d.val).toUpper = some d.val := by
  decide

/-- A digit's character is part of a word. -/
theorem ne_of_asmDigit {base d : Nat} {c : Char} (h : asmDigit base c = some d) : c ≠ ' ' ∧ c ≠ '\t' ∧ c ≠ ';' := by
  refine ⟨?_, ?_, ?_⟩ <;> rintro rfl <;> simp [asmDigit] at h

/-- Characters that are each one digit spell the digits' value after what was read before. -/
theorem asmDigits_map {base : Nat} {f : Fin base → Char} (hf : ∀ d, asmDigit base (f d) = some d.val) (acc : Nat)
    (ds : List (Fin base)) : asmDigits base acc (ds.map f) = some (ds.foldl (fun a d => a * base + d.val) acc) := by
  induction ds generalizing acc with
  | nil => rfl
  | cons d ds ih => simp [asmDigits, hf, ih]

/-- A number whose second character is no `x` is decimal. -/
theorem asmNat_of_ne {c : Char} {cs : List Char} (h : ∀ cs', cs ≠ 'x' :: cs') :
    asmNat (c :: cs) = asmDigits 10 0 (c :: cs) := by
  rw [asmNat]
  rintro d ds - rfl
  exact h _ rfl

/-- One or more decimal digits. -/
theorem asmNat_dec {ds : List (Fin 10)} (hne : ds ≠ []) : asmNat (digitChars ds) = some (digitsValue ds) := by
  obtain ⟨d, ds, rfl⟩ := List.exists_cons_of_ne_nil hne
  refine (asmNat_of_ne fun cs h => ?_).trans (asmDigits_map asmDigit_dec 0 (d :: ds))
  have hx : ∀ e : Fin 10, Nat.digitChar e.val ≠ 'x' := by decide
  cases ds with
  | nil => cases h
  | cons e ds => exact hx e (List.cons.inj h).1

/-- Digits in capitals. -/
theorem map_toUpper_digitChars (ds : List (Fin 16)) :
    (digitChars ds).map Char.toUpper = ds.map fun d => (Nat.digitChar d.val).toUpper :=
  List.map_map

section
variable {f : Fin 16 → Char} (hf : ∀ d, asmDigit 16 (f d) = some d.val)
include hf

/-- `0x` and one or more hex digits, in whichever letter case `f` writes them. -/
theorem asmNat_hex {ds : List (Fin 16)} (hne : ds ≠ []) :
    asmNat ('0' :: 'x' :: ds.map f) = some (digitsValue ds) := by
  obtain ⟨d, ds, rfl⟩ := List.exists_cons_of_ne_nil hne
  exact asmDigits_map hf 0 (d :: ds)

theorem wordChars_hex (ds : List (Fin 16)) : WordChars ('0' :: 'x' :: ds.map f) := by
  intro c hc
  rcases List.mem_cons.1 hc with rfl | hc
  · decide
  rcases List.mem_cons.1 hc with rfl | hc
  · decide
  obtain ⟨d, -, rfl⟩ := List.mem_map.1 hc
  exact ne_of_asmDigit (hf d)

/-- Two hex digits are a byte. -/
theorem asmByte_hex (h l : Fin 16) :
    asmByte ('0' :: 'x' :: [h, l].map f) = some (BitVec.ofNat 8 (h.val * 16 + l.val)) := by
  have hnat : asmNat ('0' :: 'x' :: [h, l].map f) = some (h.val * 16 + l.val) := by
    simpa [digitsValue] using asmNat_hex hf (ds := [h, l]) (by simp)
  have hlt : h.val * 16 + l.val < 256 := by omega
  simp only [asmByte, hnat, if_pos hlt]

/-- `.word 0xNN` (30_encoding.md R82). -/
theorem asmLine_word_hex (h l : Fin 16) :
    asmLine (['.', 'w', 'o', 'r', 'd'] ++ ' ' :: '0' :: 'x' :: [h, l].map f) =
      .ok (.command ⟨BitVec.ofNat 8 (h.val * 16 + l.val), false, 0⟩) := by
  have hwords := asmWords_pair (m := ['.', 'w', 'o', 'r', 'd']) (by simp) (by simp [WordChars]) (by simp)
    (wordChars_hex hf [h, l])
  rw [asmLine_pair hwords (by decide), asmPair_word (asmByte_hex hf h l)]

end

/-- An integer without `-` before it. -/
theorem asmInt_of_ne {c : Char} (h : c ≠ '-') (cs : List Char) :
    asmInt (c :: cs) = (asmNat (c :: cs)).map fun n => (false, n) := by
  rw [asmInt]
  rintro ds hcs
  exact h (List.cons.inj hcs).1

/-- An integer with `-` before it. -/
theorem asmInt_neg (cs : List Char) : asmInt ('-' :: cs) = (asmNat cs).map fun n => (true, n) := rfl

/-- One or more decimal digits without `-` before them. -/
theorem asmInt_dec {ds : List (Fin 10)} (hne : ds ≠ []) : asmInt (digitChars ds) = some (false, digitsValue ds) := by
  have hsign : ∀ d : Fin 10, Nat.digitChar d.val ≠ '-' := by decide
  have hnat := asmNat_dec hne
  obtain ⟨d, ds, rfl⟩ := List.exists_cons_of_ne_nil hne
  exact (asmInt_of_ne (hsign d) _).trans (congrArg _ hnat)

/-! ### A program's lines -/

/-- A program with one command line more. -/
theorem assemble_append_command {s t : State} {lines : List (List Char)} {l : List Char} {c : Command}
    (h : assemble s lines = .ok t) (hl : asmLine l = .ok (.command c)) :
    assemble s (lines ++ [l]) = .ok { t with cmds := t.cmds ++ [c] } := by
  induction lines generalizing s with
  | nil =>
    cases h
    simp [assemble, hl, AsmLine.apply]
  | cons k lines ih =>
    cases hk : asmLine k with
    | error e => simp [assemble, hk] at h
    | ok a =>
      simp only [assemble, hk] at h
      simpa only [List.cons_append, assemble, hk] using ih h

end Sys2Proof.Machine
end

section
/-! The statements of 30_encoding.md about the assembler (R82). -/

namespace Sys2Proof.Proofs

open Sys2Proof.Machine Sys2Proof.Claims

/-- Settles O58, by the words of each line and the names that start it. -/
theorem commentsAndAliasesChangeNothing : Obligations.CommentsAndAliasesChangeNothing := by
  refine ⟨fun cs ds => asmLine_congr (asmWords_comment cs ds), ?_, ?_, ?_, ?_, ?_⟩
  · intro m hm a vsign vmag hac ha
    have hname := commandName_of_encNames m hm
    have hane : a ≠ [] := by rintro rfl; cases ha
    rw [asmLine_pair (asmWords_pair hname.ne_nil hname.chars hane hac) hname.ne_source, asmPair_enc hname.isEnc ha]
  · intro m hm bs hbs
    have hname := commandName_of_decNames m hm
    exact asmLine_dec (asmWords_word_blanks hname.ne_nil hname.chars hbs) hname.isDec
  · intro h l ds hds
    rcases List.mem_pair.1 hds with rfl | rfl
    · exact asmLine_word_hex asmDigit_hex h l
    · exact asmLine_word_hex asmDigit_hex_upper h l
  · intro m hm cs
    exact asmLine_same_command (commandName_of_encNames m hm) (commandName_of_encNames _ (List.mem_cons_self ..)) cs
  · intro m hm cs
    exact asmLine_same_command (commandName_of_decNames m hm) (commandName_of_decNames _ (List.mem_cons_self ..)) cs

/-- Settles O59, by induction on the digits and on the lines. -/
theorem integersAndLinesAreRead : Obligations.IntegersAndLinesAreRead := by
  refine ⟨fun ds hne => ⟨asmInt_dec hne, ?_⟩, fun ds hne => ⟨?_, ?_, ?_⟩, fun s t lines l c => assemble_append_command⟩
  · rw [asmInt_neg, asmNat_dec hne, Option.map_some]
  · rw [asmInt_of_ne (by decide), digitChars, asmNat_hex asmDigit_hex hne, Option.map_some]
  · rw [asmInt_neg, digitChars, asmNat_hex asmDigit_hex hne, Option.map_some]
  · rw [asmInt_of_ne (by decide), map_toUpper_digitChars, asmNat_hex asmDigit_hex_upper hne, Option.map_some]

end Sys2Proof.Proofs
end

section
/-! SCAN by the number that its payload spells (40_decoder.md R100 to R102), and ACCUM in a sequence, unbounded and in W
bits with a sticky bit (R105). -/

namespace Sys2Proof.Machine

/-! ### SCAN -/

/-- The scan of the low `n` bits finds the payload's highest bit, if that bit is one of them (40_decoder.md R101). -/
theorem scanBelow_of_range {p : Payload} {k : Nat} (hlo : 2 ^ k ≤ p.toNat) (hhi : p.toNat < 2 ^ (k + 1)) :
    ∀ {n : Nat}, k < n → scanBelow p n = some k := by
  intro n
  induction n with
  | zero => intro hk; exact absurd hk (Nat.not_lt_zero k)
  | succ n ih =>
    intro hk
    rw [scanBelow]
    rcases (Nat.le_of_lt_succ hk).eq_or_lt with rfl | hk
    · exact if_pos (Nat.testBit_of_two_pow_le_and_two_pow_add_one_gt hlo hhi)
    · have hclear : p.getLsbD n = false :=
        Nat.testBit_lt_two_pow (hhi.trans_le (Nat.pow_le_pow_right (by decide) hk))
      rw [hclear, if_neg Bool.false_ne_true]
      exact ih hk

/-- SCAN is the base-2 logarithm of a payload other than 0 (40_decoder.md R101). -/
theorem scan_of_ne_zero {p : Payload} (h : p ≠ 0#7) : scan p = some p.toNat.log2 := by
  have h0 : p.toNat ≠ 0 := fun h0 => h (BitVec.eq_of_toNat_eq h0)
  exact scanBelow_of_range (Nat.log2_self_le h0) Nat.lt_log2_self ((Nat.log2_lt h0).2 p.isLt)

/-- An upward scan that has seen the low `i` bits ends with what the downward scan of all its bits finds
(40_decoder.md R102). -/
theorem scanUpFrom_scanBelow (p : Payload) (n : Nat) :
    ∀ i, scanUpFrom p i (scanBelow p i) n = scanBelow p (i + n) := by
  induction n with
  | zero => intro i; rfl
  | succ n ih =>
    intro i
    rw [scanUpFrom, ← scanBelow, ih, Nat.add_right_comm, Nat.add_assoc]

/-! ### ACCUM in a sequence -/

/-- ACCUM never lowers ACC (40_decoder.md R105). -/
theorem le_accum (acc : Nat) (b : Byte) (k : Nat) : acc ≤ accum acc b k := by
  rw [accum_eq_add]
  exact (Nat.le_mul_of_pos_right acc (by positivity)).trans (Nat.le_add_right _ _)

/-- No sequence of ACCUMs lowers ACC. -/
theorem le_foldl_accum (bs : List (Byte × Nat)) : ∀ acc, acc ≤ bs.foldl (fun a x => accum a x.1 x.2) acc := by
  induction bs with
  | nil => exact Nat.le_refl
  | cons x bs ih => exact fun acc => (le_accum acc x.1 x.2).trans (ih _)

/-- The W-bit realisation of an unbounded ACC: its low bits, and whether it has reached 2^W (40_decoder.md R105; the low
bits from then on are log 14's choice). -/
def StickyAcc.ofAcc (w acc : Nat) : StickyAcc := ⟨acc % 2 ^ w, decide (2 ^ w ≤ acc)⟩

/-- ACCUM's low W bits depend on ACC's low W bits only. -/
theorem accum_mod (w acc : Nat) (b : Byte) (k : Nat) :
    accum (acc % 2 ^ w) b k % 2 ^ w = accum acc b k % 2 ^ w := by
  rw [accum_eq_add, accum_eq_add]
  exact ((Nat.mod_modEq acc (2 ^ w)).mul_right _).add_right _

/-- ACC reaches 2^W where it was there before, or where ACCUM on its low W bits gets there. -/
theorem decide_two_pow_le_accum (w acc : Nat) (b : Byte) (k : Nat) :
    decide (2 ^ w ≤ accum acc b k) = (decide (2 ^ w ≤ acc) || decide (2 ^ w ≤ accum (acc % 2 ^ w) b k)) := by
  rcases Nat.lt_or_ge acc (2 ^ w) with h | h
  · rw [Nat.mod_eq_of_lt h, decide_eq_false (Nat.not_le.2 h), Bool.false_or]
  · rw [decide_eq_true h, decide_eq_true (h.trans (le_accum acc b k)), Bool.true_or]

/-- ACCUM on the realisation is the realisation of ACCUM (40_decoder.md R105). -/
theorem stickyAccum_ofAcc (w acc : Nat) (b : Byte) (k : Nat) :
    stickyAccum w (.ofAcc w acc) b k = .ofAcc w (accum acc b k) :=
  congrArg₂ StickyAcc.mk (accum_mod w acc b k) (decide_two_pow_le_accum w acc b k).symm

end Sys2Proof.Machine
end

section
/-! The statements of 40_decoder.md about SCAN and ACCUM (R101 to R105). -/

namespace Sys2Proof.Proofs

open Sys2Proof.Machine

/-- Settles O16: SCAN finds the highest bit, and an upward scan keeps what the downward scan of the bits seen so far
finds. -/
theorem scanTruthTable : Obligations.ScanTruthTable :=
  ⟨by decide, fun _ _ hk hlo hhi => scanBelow_of_range hlo hhi hk, fun p => scanUpFrom_scanBelow p 7 0⟩

/-- Settles O17: the shifted ACC and the low bits share no bit. -/
theorem accumIsExact : Obligations.AccumIsExact := accum_eq_add

/-- Settles O18: the realisation follows ACC through every ACCUM, and ACC stays at 2^W or more once it is there. -/
theorem stickyAccumulatorIsEquivalent : Obligations.StickyAccumulatorIsEquivalent := by
  refine ⟨le_accum, fun w bs _ => ?_⟩
  have hzero : StickyAcc.ofAcc w 0 = ⟨0, false⟩ := by simp [StickyAcc.ofAcc]
  have hfold := List.foldl_hom (StickyAcc.ofAcc w) (g₁ := fun a x => accum a x.1 x.2)
    (g₂ := fun a x => stickyAccum w a x.1 x.2) (l := bs) (init := 0) fun a x => stickyAccum_ofAcc w a x.1 x.2
  rw [← hzero, hfold]
  refine ⟨rfl, rfl, fun h => ⟨bs.length, by rwa [List.take_length]⟩, fun ⟨n, h⟩ => ?_⟩
  rw [← List.take_append_drop n bs, List.foldl_append]
  exact h.trans (le_foldl_accum _ _)

end Sys2Proof.Proofs
end

section
/-! DEC's acceptance and what each byte class does in a pulling block (40_decoder.md R106 to R111). -/

namespace Sys2Proof.Machine

open Sys2Proof.Claims

/-! ### Acceptance -/

/-- DEC at an idle block (40_decoder.md R106). -/
theorem exec_dec_of_idle {s : State} (hp : s.phase = .idle) : exec .dec s = .next s.acceptDec := by
  simp [exec, execDec, hp]

/-- DEC at a busy block stays at the port (70_reset_and_hazards.md R205). -/
theorem exec_dec_of_busy {s : State} (hp : s.phase ≠ .idle) :
    exec .dec s = .next (s.holdCommand ⟨0x02#8, false, 0⟩) := by
  simp [exec, execDec, hp]

/-- The step of an idle block that is offered DEC, whatever its operand. -/
theorem step_of_dec {s : State} {vsign : Bool} {vmag : Nat} {rest : List Command}
    (h : Offers s ⟨0x02#8, vsign, vmag⟩ rest) : step s = .next ({ s with cmds := rest } : State).acceptDec := by
  rw [step_of_command h.resetIn h.phase h.cmds]
  exact (runWord_of_decode (decode_dec ..)).trans (exec_dec_of_idle h.phase)

/-! ### The groups of the byte classes -/

/-- The last group of a value ends it with the new ACC (40_decoder.md R109 to R111). -/
theorem endsValue_of_takeGroup {i : Instr} {s : State} {b : Byte} {k : Nat}
    (h : exec i s = .next (s.takeGroup b k).terminate) : EndsValue i (accum s.acc b k) s := by
  refine ⟨fun hf => ?_, fun hf => ?_⟩
  · rw [h, State.terminate_of_fits hf]
    rfl
  · rw [h, State.terminate_of_not_fits hf]
    exact ⟨_, rfl, ⟨rfl, rfl, rfl, rfl, rfl, rfl⟩, ⟨rfl, rfl, rfl, rfl, rfl, rfl, rfl⟩⟩

section
variable {s : State} (hp : s.phase = .decPull)
include hp

/-- What a byte class does under the FIRST it needs is DecByte on its byte (40_decoder.md R107 to R110). -/
theorem exec_of_class {i : Instr} {b : Byte} (he : encode i = .answer (.byte b))
    (hn : i.firstNeeded = some s.first) : exec i s = .next (s.decByte b) := by
  obtain ⟨t, ht⟩ := exec_answer_next he s
  rw [ht, (exec_byte he hn hp rfl ht).eq_decByte]

/-- DEC.F.ZERO (40_decoder.md R108). -/
theorem exec_decFZero (hf : s.first = true) (c : Bool) :
    exec (.decFZero c) s = .next ((s.putResult 0).complete .ok) :=
  if_pos ((s.pulling_iff _).2 ⟨hp, hf⟩)

/-- DEC.N.LAST (40_decoder.md R110). -/
theorem exec_decNLast (hf : s.first = false) (p : Payload) :
    exec (.decNLast p) s = .next (s.takeGroup (wireNLast p) fullOffset).terminate :=
  if_pos ((s.pulling_iff _).2 ⟨hp, hf⟩)

/-- DEC.N.MORE (40_decoder.md R110). -/
theorem exec_decNMore (hf : s.first = false) (p : Payload) :
    exec (.decNMore p) s = .next (s.takeGroup (wireNMore p) fullOffset) :=
  if_pos ((s.pulling_iff _).2 ⟨hp, hf⟩)

/-- The two classes of one offset put their bits, `v`, below ACC; LAST then ends the value (40_decoder.md R109). -/
theorem offsetClasses_take {last more : Instr} {k v : Nat} {bl bm : Byte} (hf : s.first = true)
    (hlast : exec last s = .next (firstLast k bl s)) (hmore : exec more s = .next (firstMore k bm s))
    (hbl : lowBits bl k = v) (hbm : lowBits bm k = v) :
    EndsValue last (s.acc * 2 ^ (k + 1) + v) s ∧ Continues more (s.acc * 2 ^ (k + 1) + v) s := by
  have hpull := (s.pulling_iff _).2 ⟨hp, hf⟩
  rw [firstLast, if_pos hpull] at hlast
  rw [firstMore, if_pos hpull] at hmore
  refine ⟨?_, ?_⟩
  · rw [← hbl, ← accum_eq_add]
    exact endsValue_of_takeGroup hlast
  · rw [← hbm, ← accum_eq_add]
    exact hmore

/-- The class of a first byte with a non-zero payload takes the offset that SCAN finds (40_decoder.md R109). -/
theorem class_takes_scan {i : Instr} {b : Byte} {k : Nat} (hf : s.first = true)
    (he : encode i = .answer (.byte b)) (hn : i.firstNeeded = some true) (hk : scan (wirePayload b) = some k) :
    (wireMore b = false → EndsValue i (accum s.acc b k) s) ∧
    (wireMore b = true → Continues i (accum s.acc b k) s) := by
  have h := exec_of_class hp he (hn.trans (congrArg some hf.symm))
  rw [State.decByte_of_offset (fun _ => hk) fun hlater => absurd (hf.symm.trans hlater) (by decide)] at h
  refine ⟨fun hm => endsValue_of_takeGroup ?_, fun hm => ?_⟩
  · rwa [hm, if_neg (by decide)] at h
  · rwa [hm, if_pos rfl] at h

/-- The step of a pulling block at its source's next byte is DecByte (40_decoder.md R107). -/
theorem step_eq_decByte (hr : s.resetIn = false) {b : Byte} {rest : List Byte} (hs : s.src = b :: rest) :
    step s = .next (({ s with src := rest } : State).decByte b) := by
  obtain ⟨t, ht, hn⟩ := runByte b { s with src := rest } hp
  rw [step_of_byte hr hp hs, ht, hn.eq_decByte]

/-- The step of a pulling block at an ended source (40_decoder.md R107). -/
theorem step_eq_raise (hr : s.resetIn = false) (hs : s.src = []) (he : s.srcEnd = true) :
    step s = .next (s.raise .unexpectedEnd) := by
  rw [step_of_end hr hp hs he, runEnd s hp]

end

/-- A first byte with a zero payload ends the value, 0 (40_decoder.md R108). -/
theorem State.decByte_of_zero {s : State} {b : Byte} (hf : s.first = true) (hb : wirePayload b = 0#7) :
    s.decByte b = (s.putResult 0).complete .ok := by
  have hnone : scan 0#7 = none := by decide
  simp [State.decByte, hf, hb, hnone]

/-! ### The class of a byte -/

/-- The zero-payload row of the class table stands first (30_encoding.md R76). -/
theorem classify_of_zero {b : Byte} (h : b &&& 0x7F#8 = 0x00#8) :
    classify true b = some (.decFZero (wireMore b)) := by
  simp [classify, classRows, firstRowsHigh, ClassRow.hits, h]

/-- A later byte is of the class that its bit 7 says (30_encoding.md R76). -/
theorem classify_later : ∀ b : Byte,
    classify false b = some (if wireMore b then .decNMore (wirePayload b) else .decNLast (wirePayload b)) := by
  decide

end Sys2Proof.Machine
end

section
/-! The statements of 40_decoder.md about the acceptance of DEC and one DecByte step (R106 to R111, R116). -/

namespace Sys2Proof.Proofs

open Sys2Proof.Machine Sys2Proof.Claims

/-- Settles O5, by the two answers of DEC and its decoding. -/
theorem decAcceptanceInitialises : Obligations.DecAcceptanceInitialises := by
  refine ⟨fun s hp => ?_, decode_dec, fun s t hp h => ?_⟩
  · exact ⟨_, exec_dec_of_idle hp, ⟨rfl, rfl, rfl, rfl, rfl, rfl⟩, ⟨rfl, rfl, rfl, rfl, rfl, rfl, rfl⟩⟩
  · cases (exec_dec_of_busy hp).symm.trans h
    exact ⟨rfl, rfl, rfl, rfl, rfl, rfl, rfl⟩

/-- Settles O11, by DEC.F.ZERO's meaning and its row of the class table. -/
theorem zeroFirstByteEndsWithZero : Obligations.ZeroFirstByteEndsWithZero :=
  ⟨fun _ c hp hf => exec_decFZero hp hf c, fun w _ h => decode_byte (classify_of_zero h) w⟩

/-- Settles O12: each class's low bits are its payload, and a byte of none of these classes has a zero payload. -/
theorem firstByteClassesTakeTheirBits : Obligations.FirstByteClassesTakeTheirBits := by
  intro s hp hf
  obtain ⟨hlast, hmore⟩ := offsetClasses_take (last := .decFK0Last) (more := .decFK0More) (k := 0) (v := 1) hp hf
    rfl rfl (by decide) (by decide)
  refine ⟨fun p => ?_, fun p => ?_, fun p => ?_, fun p => ?_, fun p => ?_, fun p => ?_, hlast, hmore, fun w b hb => ?_⟩
  · exact offsetClasses_take (k := 6) hp hf rfl rfl (by revert p; decide) (by revert p; decide)
  · exact offsetClasses_take (k := 5) hp hf rfl rfl (by revert p; decide) (by revert p; decide)
  · exact offsetClasses_take (k := 4) hp hf rfl rfl (by revert p; decide) (by revert p; decide)
  · exact offsetClasses_take (k := 3) hp hf rfl rfl (by revert p; decide) (by revert p; decide)
  · exact offsetClasses_take (k := 2) hp hf rfl rfl (by revert p; decide) (by revert p; decide)
  · exact offsetClasses_take (k := 1) hp hf rfl rfl (by revert p; decide) (by revert p; decide)
  · obtain ⟨i, hc, he, hn⟩ := classify_some true b
    exact ⟨_, i, scan_of_ne_zero hb, decode_byte hc w, class_takes_scan hp hf he hn (scan_of_ne_zero hb)⟩

/-- Settles O13: the low seven bits of either class's byte are its payload. -/
theorem laterBytesTakeSevenBits : Obligations.LaterBytesTakeSevenBits := by
  refine ⟨fun s p hp hf => ⟨?_, ?_⟩, fun w b => decode_byte (classify_later b) w⟩
  · have hlow : lowBits (wireNLast p) fullOffset = p.toNat := by revert p; decide
    have h := endsValue_of_takeGroup (exec_decNLast hp hf p)
    rwa [accum_eq_add, hlow] at h
  · have hlow : lowBits (wireNMore p) fullOffset = p.toNat := by revert p; decide
    have h := exec_decNMore hp hf p
    rwa [State.takeGroup, accum_eq_add, hlow] at h

/-- Settles O15, by the two answers of the source. -/
theorem decByteFollowsScan : Obligations.DecByteFollowsScan := by
  intro s hr hp
  refine ⟨fun b rest hs => step_eq_decByte hp hr hs, fun hs he => ⟨_, step_eq_raise hp hr hs he, ?_, ?_⟩⟩
  · exact ⟨rfl, rfl, rfl, rfl, rfl, rfl⟩
  · exact ⟨rfl, rfl, rfl, rfl, rfl, rfl, rfl⟩

/-- Settles O45: the acceptance, and then a first byte with a zero payload. -/
theorem zeroStrippingLeavesTheRest : Obligations.ZeroStrippingLeavesTheRest := by
  intro s vsign vmag rest more ho hs
  have hbyte := step_eq_decByte (s := ({ s with cmds := rest } : State).acceptDec) rfl ho.resetIn hs
  rw [State.decByte_of_zero rfl (by decide)] at hbyte
  exact ⟨_, (run_succ 1 (step_of_dec ho)).trans (run_succ 0 hbyte), rfl, rfl, rfl, rfl, rfl, rfl⟩

end Sys2Proof.Proofs
end

section
/-! The run of a DEC against the loop of 40_decoder.md R112: each step of a pulling block keeps what the loop will end
with, or ends as the loop does. -/

namespace Sys2Proof.Machine

open Sys2Proof.Claims

/-- How the loop of R112 ends from a pulling block's registers and source; `none` where it waits for an answer. -/
def State.loopEnd (s : State) : Option DecEnd := decLoop s.width s.srcEnd s.acc s.first s.src

/-- The block pulls: DEC_PULL, no reset asserted, and OBUF empty as in every reachable pulling block. -/
structure State.Pulls (s : State) : Prop where
  resetIn : s.resetIn = false
  phase : s.phase = .decPull
  obuf : s.obuf = []

/-- The pulling block `s` has come to its end `t` as the loop's end `d` says, and the rest of the ports as they were. -/
structure State.EndedAs (s : State) (d : DecEnd) (t : State) : Prop where
  shows : Shows t .idle d.acc d.first [] d.status d.result.isSome
  result : t.result = d.result
  src : t.src = d.left
  resetIn : t.resetIn = s.resetIn
  cmds : t.cmds = s.cmds
  snk : t.snk = s.snk

/-- The pulls that take no byte: one, of END, where the loop ends by it. -/
def DecEnd.endPulls (d : DecEnd) : Nat := if d.status = 2#3 then 1 else 0

theorem DecEnd.endPulls_le_one (d : DecEnd) : d.endPulls ≤ 1 := by
  unfold DecEnd.endPulls
  split <;> decide

/-- The run from a pulling block to its end `t`: `n` pulls, in DEC_PULL and byte after byte until the last. -/
structure State.PullsUntil (s : State) (n : Nat) (t : State) : Prop where
  pulling : ∀ j, j < n → ∃ u, Runs j s u ∧ u.phase = .decPull ∧ u.src = s.src.drop j
  ended : Runs n s t

/-! ### The loop, byte by byte -/

/-- The loop on a byte whose group ends at bit `k`, as DecByte takes it (40_decoder.md R109, R110, R112). -/
theorem State.loopEnd_of_offset {s : State} {b : Byte} {rest : List Byte} {k : Nat} (hs : s.src = b :: rest)
    (hfirst : s.first = true → scan (wirePayload b) = some k) (hlater : s.first = false → k = fullOffset) :
    s.loopEnd = if wireMore b then ({ s with src := rest } : State).takeGroup b k |>.loopEnd
      else some (decFinish s.width (accum s.acc b k) rest) := by
  rw [State.loopEnd, hs]
  cases hf : s.first with
  | true => simp only [decLoop, hfirst hf]; rfl
  | false => simp only [decLoop, hlater hf]; rfl

/-- The loop on a first byte with a zero payload (40_decoder.md R108, R112). -/
theorem State.loopEnd_of_zero {s : State} {b : Byte} {rest : List Byte} (hs : s.src = b :: rest)
    (hf : s.first = true) (hb : wirePayload b = 0#7) :
    s.loopEnd = some ⟨.ok, some 0, s.acc, true, rest⟩ := by
  have hnone : scan 0#7 = none := by decide
  simp [State.loopEnd, hs, hf, decLoop, hb, hnone]

/-- The loop at an exhausted source (40_decoder.md R112). -/
theorem State.loopEnd_of_nil {s : State} (hs : s.src = []) :
    s.loopEnd = if s.srcEnd then some ⟨.unexpectedEnd, none, s.acc, s.first, []⟩ else none := by
  rw [State.loopEnd, hs, decLoop]

/-- `Terminate()` ends with OK or with OVERFLOW, and leaves the source. -/
theorem decFinish_cases (w : Width) (acc : Nat) (left : List Byte) :
    (w.fits acc = true ∧ decFinish w acc left = ⟨.ok, some acc, acc, false, left⟩) ∨
    (w.fits acc = false ∧ decFinish w acc left = ⟨.overflow, none, acc, false, left⟩) := by
  cases h : w.fits acc with
  | true => exact .inl ⟨rfl, if_pos h⟩
  | false => exact .inr ⟨rfl, if_neg (by simp [h])⟩

/-- The termination of the block is the loop's (40_decoder.md R111). -/
theorem State.terminate_endedAs {s : State} (hf : s.first = false) (ho : s.obuf = []) :
    s.EndedAs (decFinish s.width s.acc s.src) s.terminate := by
  rcases decFinish_cases s.width s.acc s.src with ⟨h, hd⟩ | ⟨h, hd⟩ <;> rw [hd]
  · rw [State.terminate_of_fits h]
    exact ⟨⟨rfl, rfl, hf, ho, rfl, rfl⟩, rfl, rfl, rfl, rfl, rfl⟩
  · rw [State.terminate_of_not_fits h]
    exact ⟨⟨rfl, rfl, hf, rfl, rfl, rfl⟩, rfl, rfl, rfl, rfl, rfl⟩

/-! ### One step -/

/-- What a step of a pulling block does about the loop: wait with it, go on with it, or end as it does. -/
inductive PullNext (s : State) : State → Prop where
  | hold (hl : s.loopEnd = none) : PullNext s s
  | more {t : State} (b : Byte) (ht : t.Pulls) (hs : s.src = b :: t.src) (hc : t.cmds = s.cmds) (hk : t.snk = s.snk)
      (hl : t.loopEnd = s.loopEnd) : PullNext s t
  | ends {t : State} (d : DecEnd) (hl : s.loopEnd = some d) (ht : s.EndedAs d t)
      (hn : s.src.length + d.endPulls = d.left.length + 1) : PullNext s t

/-- `Terminate()` pulls nothing more and leaves the source. -/
theorem decFinish_endPulls_left (w : Width) (acc : Nat) (left : List Byte) :
    (decFinish w acc left).endPulls = 0 ∧ (decFinish w acc left).left = left := by
  rcases decFinish_cases w acc left with ⟨-, hd⟩ | ⟨-, hd⟩ <;> rw [hd] <;> exact ⟨rfl, rfl⟩

/-- The step of a pulling block at its source's next byte keeps to the loop. -/
theorem ByteNext.pullNext {s t : State} {b : Byte} {rest : List Byte} (h : ByteNext { s with src := rest } b t)
    (hp : s.Pulls) (hs : s.src = b :: rest) : PullNext s t := by
  cases h with
  | zero hf hz =>
    refine .ends _ (State.loopEnd_of_zero hs hf hz) ⟨⟨rfl, rfl, hf, hp.obuf, rfl, rfl⟩, rfl, rfl, rfl, rfl, rfl⟩ ?_
    rw [hs]
    rfl
  | more k _ hm hfirst hlater =>
    refine .more b ⟨hp.resetIn, hp.phase, hp.obuf⟩ hs rfl rfl ?_
    rw [State.loopEnd_of_offset hs hfirst hlater, if_pos hm]
  | last k _ hm hfirst hlater =>
    have ht := (({ s with src := rest } : State).takeGroup b k).terminate_endedAs rfl hp.obuf
    obtain ⟨hpulls, hleft⟩ := decFinish_endPulls_left s.width (accum s.acc b k) rest
    refine .ends _ ((State.loopEnd_of_offset hs hfirst hlater).trans (if_neg (by simp [hm])))
      ⟨ht.shows, ht.result, ht.src, ht.resetIn, ht.cmds, ht.snk⟩ ?_
    rw [hs, hpulls, hleft]
    rfl

/-- Every step of a pulling block keeps to the loop (40_decoder.md R107, R112). -/
theorem step_pullNext {s : State} (hp : s.Pulls) : ∃ t, step s = .next t ∧ PullNext s t := by
  rcases step_total s with ⟨t, ht, hn⟩ | ⟨-, -, hidle, -⟩
  · refine ⟨t, ht, ?_⟩
    cases hn with
    | hold _ h =>
      obtain ⟨hs, he⟩ : s.src = [] ∧ s.srcEnd = false := by simpa [hp.phase] using h
      exact .hold (by rw [State.loopEnd_of_nil hs, he]; rfl)
    | byte b rest t _ _ hs h => exact h.pullNext hp hs
    | endOfInput _ _ hs he =>
      refine .ends ⟨.unexpectedEnd, none, s.acc, s.first, []⟩ (by rw [State.loopEnd_of_nil hs, he]; rfl)
        ⟨⟨rfl, rfl, rfl, rfl, rfl, rfl⟩, rfl, hs, rfl, rfl, rfl⟩ ?_
      rw [hs]
      rfl
    | reset hr => simp [hp.resetIn] at hr
    | command _ _ _ _ hi | pushLast _ _ hi | pushMore _ _ _ _ hi => simp [hp.phase] at hi
  · simp [hp.phase] at hidle

/-! ### The run -/

/-- A run of pulls, from its first step on. -/
theorem State.PullsUntil.cons {s u t : State} {b : Byte} {n : Nat} (hp : s.Pulls) (hstep : step s = .next u)
    (hs : s.src = b :: u.src) (h : u.PullsUntil n t) : s.PullsUntil (n + 1) t := by
  refine ⟨fun j hj => ?_, (run_succ n hstep).trans h.ended⟩
  cases j with
  | zero => exact ⟨s, rfl, hp.phase, rfl⟩
  | succ j =>
    obtain ⟨v, hv, hphase, hsrc⟩ := h.pulling j (Nat.lt_of_succ_lt_succ hj)
    exact ⟨v, (run_succ j hstep).trans hv, hphase, by rw [hsrc, hs, List.drop_succ_cons]⟩

/-- A block whose pull goes on ends as its successor does. -/
theorem State.EndedAs.of_more {s u t : State} {d : DecEnd} (h : u.EndedAs d t) (hr : u.resetIn = s.resetIn)
    (hc : u.cmds = s.cmds) (hk : u.snk = s.snk) : s.EndedAs d t :=
  ⟨h.shows, h.result, h.src, h.resetIn.trans hr, h.cmds.trans hc, h.snk.trans hk⟩

/-- Where the loop ends, the block's run ends as the loop does, in one pull per byte that the loop takes and one for
END where it ends by that (40_decoder.md R112). -/
theorem run_of_loopEnd {s : State} {d : DecEnd} (hp : s.Pulls) (hl : s.loopEnd = some d) :
    ∃ n t, n + 1 + d.left.length = s.src.length + d.endPulls ∧ s.PullsUntil (n + 1) t ∧ s.EndedAs d t := by
  obtain ⟨t, hstep, hnext⟩ := step_pullNext hp
  cases hnext with
  | hold hnone => cases hnone.symm.trans hl
  | ends d' hl' ht hn =>
    cases hl'.symm.trans hl
    refine ⟨0, t, by omega, ⟨fun j hj => ?_, run_succ 0 hstep⟩, ht⟩
    obtain rfl := Nat.lt_one_iff.1 hj
    exact ⟨s, rfl, hp.phase, rfl⟩
  | more b ht hs hc hk hl' =>
    obtain ⟨n, u, hn, hrun, hend⟩ := run_of_loopEnd ht (hl'.trans hl)
    refine ⟨n + 1, u, ?_, hrun.cons hp hstep hs, hend.of_more (ht.resetIn.trans hp.resetIn.symm) hc hk⟩
    rw [hs, List.length_cons]
    omega
termination_by s.src.length
decreasing_by rw [hs]; exact Nat.lt_succ_self _

/-- Where the loop waits for ever, so does the block, in DEC_PULL (40_decoder.md R112, 60_exceptions.md R181). -/
theorem run_of_loopEnd_none (n : Nat) : ∀ {s : State}, s.Pulls → s.loopEnd = none →
    ∃ t, Runs n s t ∧ t.phase = .decPull := by
  induction n with
  | zero => exact fun hp _ => ⟨_, rfl, hp.phase⟩
  | succ n ih =>
    intro s hp hl
    obtain ⟨u, hstep, hnext⟩ := step_pullNext hp
    obtain ⟨t, ht, hphase⟩ : ∃ t, Runs n u t ∧ t.phase = .decPull := by
      cases hnext with
      | hold => exact ih hp hl
      | more b hu _ _ _ hl' => exact ih hu (hl'.trans hl)
      | ends d hl' => cases hl'.symm.trans hl
    exact ⟨t, (run_succ n hstep).trans ht, hphase⟩

/-- An idle block without a command holds (10_state.md R34). -/
theorem run_of_idle {s : State} (hr : s.resetIn = false) (hp : s.phase = .idle) (hc : s.cmds = []) (n : Nat) :
    core.run n s = .next s := by
  have hstep : step s = .next s := by simp [step, hr, hp, State.fetch, hc]
  induction n with
  | zero => rfl
  | succ n ih => exact (run_succ n hstep).trans ih

/-- A block that has come to its end was in DEC_PULL before, and without a further command stays where it ended. -/
theorem State.PullsUntil.eq_of_idle {s u t : State} {m n : Nat} (h : s.PullsUntil m u) (hr : u.resetIn = false)
    (hi : u.phase = .idle) (hc : u.cmds = []) (hrun : Runs n s t) (ht : t.phase = .idle) : t = u := by
  rcases Nat.lt_or_ge n m with hn | hn
  · obtain ⟨v, hv, hphase, -⟩ := h.pulling n hn
    cases hv.symm.trans hrun
    simp [hphase] at ht
  · obtain ⟨k, rfl⟩ := Nat.exists_eq_add_of_le hn
    rw [Runs, run_add m k h.ended, run_of_idle hr hi hc] at hrun
    cases hrun
    rfl

end Sys2Proof.Machine
end

section
/-! The loop of 40_decoder.md R112 on one whole value and on a truncated one (30_encoding.md R75). -/

namespace Sys2Proof.Machine

open Sys2Proof.Claims

theorem pulls_of_atFirstByte {s : State} (h : AtFirstByte s) : s.Pulls := ⟨h.resetIn, h.phase, h.obuf⟩

/-- A first byte with a non-zero payload is a group at the start of a DEC. -/
theorem takesGroup_of_atFirstByte {s : State} (h : AtFirstByte s) {b : Byte} (hb : wirePayload b ≠ 0#7) :
    s.TakesGroup b := fun _ => ⟨h.acc, hb⟩

/-- A byte whose group is taken has an offset, and its whole payload stands in the bits up to it. -/
theorem State.TakesGroup.offset {s : State} {b : Byte} (h : s.TakesGroup b) :
    ∃ k, (s.first = true → scan (wirePayload b) = some k) ∧ (s.first = false → k = fullOffset) ∧
      lowBits b k = b.toNat % 128 := by
  cases hf : s.first with
  | true =>
    have hscan := scan_of_ne_zero (h hf).2
    exact ⟨_, fun _ => hscan, (nomatch ·), lowBits_of_scan hscan⟩
  | false => exact ⟨_, (nomatch ·), fun _ => rfl, rfl⟩

/-- The loop on a byte whose group is taken goes on or ends with plain base-128 in ACC (40_decoder.md R112, R114). -/
theorem State.loopEnd_of_group {s : State} {b : Byte} {rest : List Byte} (hs : s.src = b :: rest)
    (hg : s.TakesGroup b) :
    s.loopEnd = if wireMore b then (s.pulled [b] rest).loopEnd
      else some (decFinish s.width (plainValue s.acc [b]) rest) := by
  obtain ⟨k, hfirst, hlater, hlow⟩ := hg.offset
  have hacc := State.accum_of_takesGroup hg hlater hlow
  have hpulled : ({ s with src := rest } : State).takeGroup b k = s.pulled [b] rest := by
    rw [State.takeGroup, State.pulled, ← hacc]
  rw [State.loopEnd_of_offset hs hfirst hlater, hpulled, hacc]

/-- The loop on the bytes of one value ends with them, and terminates with plain base-128 in ACC (40_decoder.md R112,
R114). -/
theorem State.loopEnd_of_marked {rest : List Byte} : ∀ {bs : List Byte} {s : State}, s.src = bs ++ rest →
    marked bs = true → (∀ b, bs.head? = some b → s.TakesGroup b) →
    s.loopEnd = some (decFinish s.width (plainValue s.acc bs) rest) := by
  intro bs
  induction bs with
  | nil => intro s _ hm; simp [marked] at hm
  | cons b bs ih =>
    intro s hs hm hg
    rw [State.loopEnd_of_group hs (hg b rfl)]
    cases bs with
    | nil => exact if_neg (by simpa [marked] using hm)
    | cons c cs =>
      obtain ⟨hb, hm⟩ : wireMore b = true ∧ marked (c :: cs) = true := by simpa [marked] using hm
      rw [if_pos hb]
      exact ih rfl hm fun d _ => s.takesGroup_pulled _ _ d

/-- The loop on bytes that all have C = 1 ends by END where the source answers that (40_decoder.md R112, R113). -/
theorem State.loopEnd_of_cut : ∀ {bs : List Byte} {s : State}, s.src = bs → bs.all wireMore = true →
    (∀ b, bs.head? = some b → s.TakesGroup b) →
    ∃ acc first, s.loopEnd = if s.srcEnd then some ⟨.unexpectedEnd, none, acc, first, []⟩ else none := by
  intro bs
  induction bs with
  | nil => intro s hs _ _; exact ⟨_, _, State.loopEnd_of_nil hs⟩
  | cons b bs ih =>
    intro s hs hm hg
    obtain ⟨hb, hm⟩ : wireMore b = true ∧ bs.all wireMore = true := by simpa using hm
    rw [State.loopEnd_of_group hs (hg b rfl), if_pos hb]
    exact ih rfl hm fun d _ => s.takesGroup_pulled _ _ d

/-- Bytes hold a whole value's marking up to the first with C = 0, or all have C = 1 (30_encoding.md R75). -/
theorem marked_prefix_or_all_more (bs : List Byte) :
    (∃ p rest, bs = p ++ rest ∧ marked p = true) ∨ bs.all wireMore = true := by
  induction bs with
  | nil => exact .inr rfl
  | cons b bs ih =>
    cases hb : wireMore b with
    | false => exact .inl ⟨[b], bs, rfl, by simp [marked, hb]⟩
    | true =>
      rcases ih with ⟨p, rest, rfl, hm⟩ | hall
      · obtain ⟨c, cs, rfl⟩ := List.exists_cons_of_ne_nil (ne_nil_of_marked hm)
        exact .inl ⟨b :: c :: cs, rest, rfl, by simp [marked, hb, hm]⟩
      · exact .inr (by simp [hb, hall])

/-- At the start of a DEC the loop takes exactly the bytes of one whole value (40_decoder.md R113). -/
theorem State.loopEnd_of_wholeValue {s : State} {p rest : List Byte} (hat : AtFirstByte s) (hs : s.src = p ++ rest)
    (hp : wholeValue p = true) : ∃ d, s.loopEnd = some d ∧ d.left = rest ∧ d.endPulls = 0 := by
  cases p with
  | nil => cases hp
  | cons b p =>
    by_cases hb : wirePayload b = 0#7
    · obtain rfl : p = [] := by simpa [wholeValue, hb] using hp
      exact ⟨_, State.loopEnd_of_zero hs hat.first hb, rfl, rfl⟩
    · have hm : marked (b :: p) = true := by simpa [wholeValue, hb] using hp
      obtain ⟨hpulls, hleft⟩ := decFinish_endPulls_left s.width (plainValue s.acc (b :: p)) rest
      refine ⟨_, State.loopEnd_of_marked hs hm fun c hc => ?_, hleft, hpulls⟩
      cases hc
      exact takesGroup_of_atFirstByte hat hb

/-- A DEC pulls every byte of a truncated value and then END (40_decoder.md R113, R114). -/
theorem run_of_cutValue {s : State} (hat : AtFirstByte s) (hcut : cutValue s.src = true) (he : s.srcEnd = true) :
    ∃ t, Runs (s.src.length + 1) s t ∧ t.phase = .idle ∧ t.src = [] ∧ t.status = 2#3 ∧ t.resultValid = false := by
  have hmore : s.src.all wireMore = true ∧ ∀ b, s.src.head? = some b → s.TakesGroup b := by
    cases hs : s.src with
    | nil => exact ⟨rfl, fun _ h => nomatch h⟩
    | cons b bs =>
      rw [hs, cutValue, Bool.and_eq_true, decide_eq_true_iff] at hcut
      refine ⟨hcut.2, fun c hc => ?_⟩
      cases hc
      exact takesGroup_of_atFirstByte hat hcut.1
  obtain ⟨acc, first, hl⟩ := State.loopEnd_of_cut rfl hmore.1 hmore.2
  rw [he, if_pos rfl] at hl
  obtain ⟨n, t, hn, hrun, hend⟩ := run_of_loopEnd (pulls_of_atFirstByte hat) hl
  obtain rfl : n = s.src.length := Nat.succ.inj hn
  exact ⟨t, hrun.ended, hend.shows.phase, hend.src, hend.shows.status, hend.shows.resultValid⟩

end Sys2Proof.Machine
end

section
/-! The canonical encoding (40_decoder.md R115): the bytes that decode to a value, with a first payload other than zero,
are the encoder's own. -/

namespace Sys2Proof.Machine

open Sys2Proof.Claims

/-- The bytes that the encoder puts before a value's last group, by the value `v` of the groups before it. -/
def leadBytes (v : Nat) : List Byte := if v = 0 then [] else (encBytes v).map (· ||| 0x80#8)

/-- ENCBYTES by the last group (45_encoder.md R141). -/
theorem encBytes_eq_leadBytes (v g : Nat) (hg : g < 128) :
    encBytes (v * 128 + g) = leadBytes v ++ [BitVec.ofNat 8 g] := by
  rcases Nat.eq_zero_or_pos v with rfl | hv
  · rw [Nat.zero_mul, Nat.zero_add, encBytes_small hg]
    rfl
  · have hdiv : (v * 128 + g) / 128 = v := by omega
    have hmod : (v * 128 + g) % 128 = g := by omega
    rw [encBytes_step (by omega), leadBytes, if_neg hv.ne', hdiv, hmod]

/-- Marking a byte that has C = 1 changes nothing. -/
theorem or_mark_of_more : ∀ b : Byte, wireMore b = true → b ||| 0x80#8 = b := by
  decide

/-- A byte with C = 1 is its marked payload. -/
theorem mark_payload_of_more : ∀ b : Byte, wireMore b = true → BitVec.ofNat 8 (b.toNat % 128) ||| 0x80#8 = b := by
  decide

/-- A byte with C = 0 is its payload. -/
theorem payload_of_last : ∀ b : Byte, wireMore b = false → BitVec.ofNat 8 (b.toNat % 128) = b := by
  decide

theorem plainValue_append (acc : Nat) (bs : List Byte) (b : Byte) :
    plainValue acc (bs ++ [b]) = plainValue acc bs * 128 + b.toNat % 128 := by
  induction bs generalizing acc with
  | nil => rfl
  | cons c bs ih => exact ih _

/-- Plain base-128 does not come back to 0. -/
theorem plainValue_pos {acc : Nat} (h : 0 < acc) (bs : List Byte) : 0 < plainValue acc bs := by
  induction bs generalizing acc with
  | nil => exact h
  | cons b bs ih => exact ih (by omega)

/-- A first payload other than zero gives a value other than 0. -/
theorem plainValue_cons_pos {b : Byte} (hb : wirePayload b ≠ 0#7) (bs : List Byte) : 0 < plainValue 0 (b :: bs) :=
  plainValue_pos (Nat.add_pos_right _ (payload_pos_of_scan (scan_of_ne_zero hb))) bs

/-- The bytes of one value are bytes with C = 1 and then one with C = 0 (30_encoding.md R71). -/
theorem append_of_marked {bs : List Byte} (h : marked bs = true) :
    ∃ q c, bs = q ++ [c] ∧ q.all wireMore = true ∧ wireMore c = false := by
  induction bs with
  | nil => cases h
  | cons b bs ih =>
    cases bs with
    | nil => exact ⟨[], b, rfl, rfl, by simpa [marked] using h⟩
    | cons c cs =>
      obtain ⟨hb, hm⟩ : wireMore b = true ∧ marked (c :: cs) = true := by simpa [marked] using h
      obtain ⟨q, d, hq, hall, hd⟩ := ih hm
      exact ⟨b :: q, d, by rw [hq, List.cons_append], by simp [hb, hall], hd⟩

/-- Bytes with C = 1 and a first payload other than zero are what the encoder puts before the last group. -/
theorem leadBytes_plainValue {q : List Byte} (hm : q.all wireMore = true)
    (hb : ∀ b, q.head? = some b → wirePayload b ≠ 0#7) : leadBytes (plainValue 0 q) = q := by
  induction q using List.reverseRecOn with
  | nil => rfl
  | append_singleton q c ih =>
    obtain ⟨hq, hc⟩ : q.all wireMore = true ∧ wireMore c = true := by simpa using hm
    have hmark : q.map (· ||| 0x80#8) = q :=
      (List.map_congr_left fun b h => or_mark_of_more b (List.all_eq_true.1 hq b h)).trans (List.map_id q)
    have hpos : plainValue 0 (q ++ [c]) ≠ 0 := by
      obtain ⟨b, bs, hcons⟩ := List.exists_cons_of_ne_nil (l := q ++ [c]) (by simp)
      rw [hcons] at hb ⊢
      exact (plainValue_cons_pos (hb b rfl) bs).ne'
    rw [leadBytes, if_neg hpos, plainValue_append, encBytes_eq_leadBytes _ _ (Nat.mod_lt _ (by decide)),
      ih hq fun b h => hb b (by rw [List.head?_append, h]; rfl), List.map_append, hmark, List.map_singleton,
      mark_payload_of_more c hc]

/-- The bytes of one value with a first payload other than zero are the encoder's bytes of what they decode to
(40_decoder.md R115). -/
theorem encBytes_plainValue {bs : List Byte} (hm : marked bs = true)
    (hb : ∀ b, bs.head? = some b → wirePayload b ≠ 0#7) : encBytes (plainValue 0 bs) = bs := by
  obtain ⟨q, c, rfl, hq, hc⟩ := append_of_marked hm
  rw [plainValue_append, encBytes_eq_leadBytes _ _ (Nat.mod_lt _ (by decide)),
    leadBytes_plainValue hq fun b h => hb b (by rw [List.head?_append, h]; rfl), payload_of_last c hc]

/-- A loop that ends with OK on a first payload other than zero has taken the encoder's bytes of its result
(40_decoder.md R115). -/
theorem State.loopEnd_canonical {s : State} {b : Byte} {more : List Byte} {d : DecEnd} (hat : AtFirstByte s)
    (hs : s.src = b :: more) (hb : wirePayload b ≠ 0#7) (hl : s.loopEnd = some d) (hok : d.status = 1#3) :
    ∃ v, d.result = some v ∧ s.src = encBytes v ++ d.left := by
  rcases marked_prefix_or_all_more s.src with ⟨p, rest, hp, hm⟩ | hall
  · have hhead (c : Byte) (hc : p.head? = some c) : c = b := by
      have h := congrArg List.head? (hp.symm.trans hs)
      rw [List.head?_append, hc] at h
      exact Option.some.inj h
    have hg (c : Byte) (hc : p.head? = some c) : s.TakesGroup c :=
      takesGroup_of_atFirstByte hat (hhead c hc ▸ hb)
    rw [State.loopEnd_of_marked hp hm hg, hat.acc] at hl
    rcases decFinish_cases s.width (plainValue 0 p) rest with ⟨-, hd⟩ | ⟨-, hd⟩
    · cases hd.symm.trans (Option.some.inj hl)
      exact ⟨_, rfl, by rw [encBytes_plainValue hm fun c hc => hhead c hc ▸ hb, hp]⟩
    · cases hd.symm.trans (Option.some.inj hl)
      simp at hok
  · have hg (c : Byte) (hc : s.src.head? = some c) : s.TakesGroup c := by
      rw [hs] at hc
      cases hc
      exact takesGroup_of_atFirstByte hat hb
    obtain ⟨acc, first, hcut⟩ := State.loopEnd_of_cut rfl hall hg
    rw [hcut] at hl
    split at hl <;> cases hl
    simp at hok

end Sys2Proof.Machine
end

section
/-! The statements of 40_decoder.md about DEC as a whole (R112 to R115). -/

namespace Sys2Proof.Proofs

open Sys2Proof.Machine Sys2Proof.Claims

/-- Settles O39: after the acceptance every step of the pulling block keeps to the loop. -/
theorem decRunFollowsTheLoop : Obligations.DecRunFollowsTheLoop := by
  intro s vsign vmag rest ho
  have haccept := step_of_dec ho
  have hp : ({ s with cmds := rest } : State).acceptDec.Pulls := ⟨ho.resetIn, rfl, ho.obuf⟩
  refine ⟨fun d hl => ?_, fun hl n => ?_⟩
  · obtain ⟨m, t, hm, hrun, hend⟩ := run_of_loopEnd hp hl
    have hn : 1 + (s.src.length - d.left.length) + d.endPulls = m + 1 + 1 := by
      have hm : m + 1 + d.left.length = s.src.length + d.endPulls := hm
      have hpulls := d.endPulls_le_one
      omega
    refine ⟨fun j hj hjn => ?_, t, ?_, hend.shows, hend.result, hend.src, hend.cmds, hend.snk⟩
    · obtain ⟨i, rfl⟩ := Nat.exists_eq_add_of_le' hj
      obtain ⟨u, hu, hphase, -⟩ := hrun.pulling i (Nat.lt_of_succ_lt_succ (hjn.trans_eq hn))
      exact ⟨u, (run_succ i haccept).trans hu, hphase⟩
    · exact (congrArg (core.run · s) hn).trans ((run_succ _ haccept).trans hrun.ended)
  · obtain ⟨t, ht, hphase⟩ := run_of_loopEnd_none n hp hl
    exact ⟨t, (run_succ n haccept).trans ht, hphase⟩

/-- Settles O41: the loop takes the bytes of one whole value, or all of a truncated one and then END. -/
theorem decConsumesExactlyOneValue : Obligations.DecConsumesExactlyOneValue := by
  refine ⟨fun s p rest hat hs hp => ?_, fun s hat hcut he => ?_⟩
  · obtain ⟨d, hl, rfl, hpulls⟩ := State.loopEnd_of_wholeValue hat hs hp
    obtain ⟨m, t, hm, hrun, hend⟩ := run_of_loopEnd (pulls_of_atFirstByte hat) hl
    rw [hpulls, hs, List.length_append, Nat.add_zero] at hm
    obtain hm : m + 1 = p.length := Nat.add_right_cancel hm
    rw [hm] at hrun
    refine ⟨fun j hj => ?_, t, hrun.ended, hend.shows.phase, hend.src, hend.cmds⟩
    obtain ⟨u, hu, hphase, hsrc⟩ := hrun.pulling j hj
    exact ⟨u, hu, hphase, by rw [hsrc, hs, List.drop_append_of_le_length hj.le]⟩
  · obtain ⟨t, ht, hphase, hsrc, hstatus, -⟩ := run_of_cutValue hat hcut he
    exact ⟨t, ht, hphase, hsrc, hstatus⟩

/-- Settles O42: the run over the value's bytes terminates with their plain base-128 value in ACC. -/
theorem decodingIsPlainBase128 : Obligations.DecodingIsPlainBase128 := by
  refine ⟨fun s b p rest hat hs hb hm => ?_, fun s b p hat hs hb hall he => ?_⟩
  · have hg (c : Byte) (hc : (b :: p).head? = some c) : s.TakesGroup c := by
      cases hc
      exact takesGroup_of_atFirstByte hat hb
    have hacc : (s.pulled (b :: p) rest).acc = plainValue 0 (b :: p) := by rw [State.pulled_acc, hat.acc]
    obtain ⟨-, hkeep, -, hphase, -, -, hsrc, -⟩ := (s.pulled (b :: p) rest).terminate_frame
    refine ⟨_, run_of_marked hat.resetIn hat.phase hs hm hg, hphase, hsrc, hkeep.trans hacc, fun hf => ?_, fun hf => ?_⟩
    · rw [State.terminate_of_fits (by rw [hacc]; exact hf), hacc]
      exact ⟨rfl, rfl, rfl⟩
    · rw [State.terminate_of_not_fits (by rw [hacc]; exact hf)]
      exact ⟨rfl, rfl⟩
  · have hcut : cutValue s.src = true := by rw [hs, cutValue, hall, decide_eq_true hb]; rfl
    obtain ⟨t, ht, hphase, hsrc, hstatus, hvalid⟩ := run_of_cutValue hat hcut he
    rw [hs] at ht
    exact ⟨t, ht, hphase, hstatus, hvalid, hsrc⟩

/-- Settles O44: a DEC that has ended has ended as the loop does, and the loop's OK is for the encoder's own bytes. -/
theorem acceptedInputIsCanonical : Obligations.AcceptedInputIsCanonical := by
  intro n s t b more hat hc hs hb hrun hidle hok
  have hp := pulls_of_atFirstByte hat
  cases hl : s.loopEnd with
  | none =>
    obtain ⟨u, hu, hphase⟩ := run_of_loopEnd_none n hp hl
    cases hu.symm.trans hrun
    simp [hphase] at hidle
  | some d =>
    obtain ⟨m, u, -, hpulls, hend⟩ := run_of_loopEnd hp hl
    obtain rfl := hpulls.eq_of_idle (hend.resetIn.trans hat.resetIn) hend.shows.phase (hend.cmds.trans hc) hrun hidle
    rw [hend.result, hend.src]
    exact State.loopEnd_canonical hat hs hb hl (hend.shows.status.symm.trans hok)

end Sys2Proof.Proofs
end

section
/-! The encoder's bytes as a function of the value (45_encoder.md R142, R144 to R146): how many there are, each of them,
and what they decode to. -/

namespace Sys2Proof.Machine

open Sys2Proof.Claims

/-! ### Marking a byte -/

/-- Marking sets bit 7 and keeps the payload (45_encoder.md R142). -/
@[simp] theorem wirePayload_mark (b : Byte) : wirePayload (b ||| 0x80#8) = wirePayload b := by
  revert b
  decide

/-- Marking a group that may be marked already (`m`) gives the marked group. -/
theorem mark_ofNat {m : Nat} (hm : m = 0x80 ∨ m = 0x00) (g : Nat) :
    BitVec.ofNat 8 (m ||| g) ||| 0x80#8 = BitVec.ofNat 8 (0x80 ||| g) := by
  rw [BitVec.ofNat_or, BitVec.ofNat_or, BitVec.or_comm, ← BitVec.or_assoc]
  rcases hm with rfl | rfl <;> rfl

/-! ### By the groups -/

/-- A fact about the encoder's values holds of all when it holds of one group and passes from the value without its low
group to the value (45_encoder.md R141). -/
theorem encBytes_induction {P : Nat → Prop} (small : ∀ v, v < 128 → P v) (step : ∀ v, 128 ≤ v → P (v / 128) → P v)
    (v : Nat) : P v := by
  induction v using Nat.strongRecOn with
  | ind v ih =>
    rcases Nat.lt_or_ge v 128 with h | h
    · exact small v h
    · exact step v h (ih _ (by omega))

/-- One group less is seven bits less. -/
theorem div_shiftRight (v i : Nat) : (v / 128) >>> (7 * i) = v >>> (7 * (i + 1)) := by
  rw [Nat.mul_add_one, Nat.add_comm, Nat.shiftRight_add, Nat.shiftRight_eq_div_pow v 7]

/-- The number of bytes is the number of groups that the value's bits start (45_encoder.md R144). -/
theorem encBytes_length (v : Nat) : (encBytes v).length = if v = 0 then 1 else (Nat.size v + 6) / 7 := by
  have hpos := encBytes_length_pos v
  have hle (n : Nat) : (encBytes v).length ≤ n + 1 ↔ Nat.size v ≤ 7 * (n + 1) := by
    rw [encBytes_length_le_iff, Nat.size_le]
  have henough := hle ((encBytes v).length - 1)
  have hfewer := hle ((encBytes v).length - 2)
  have hzero : Nat.size v = 0 ↔ v = 0 := Nat.size_eq_zero
  split <;> omega

/-- The last byte is the low group (45_encoder.md R142). -/
theorem encBytes_getLast? (v : Nat) : (encBytes v).getLast? = some (BitVec.ofNat 8 (v % 128)) := by
  rcases Nat.lt_or_ge v 128 with h | h
  · rw [encBytes_small h, Nat.mod_eq_of_lt h, List.getLast?_singleton]
  · rw [encBytes_step h, List.getLast?_concat]

/-- Byte `i` of `n` in the closed form of ENCBYTES(v) (45_encoder.md R144). -/
def closedByte (v n i : Nat) : Byte :=
  BitVec.ofNat 8 ((if i < n - 1 then 0x80 else 0x00) ||| ((v >>> (7 * (n - 1 - i))) &&& 0x7F))

/-- The last byte of the closed form is the low group. -/
theorem closedByte_last (v n : Nat) : closedByte v (n + 1) n = BitVec.ofNat 8 (v % 128) := by
  have hlow : v &&& 0x7F = v % 128 := Nat.and_two_pow_sub_one_eq_mod v 7
  simp [closedByte, hlow]

/-- The bytes before the last are those of the value without its low group, marked. -/
theorem mark_closedByte {v n i : Nat} (hi : i < n) :
    closedByte (v / 128) n i ||| 0x80#8 = closedByte v (n + 1) i := by
  have hshift : n - 1 - i + 1 = n + 1 - 1 - i := by omega
  rw [closedByte, closedByte, div_shiftRight, hshift, if_pos (show i < n + 1 - 1 from hi)]
  exact mark_ofNat (ite_eq_or_eq ..) _

/-- The closed form of ENCBYTES (45_encoder.md R144). -/
theorem encBytes_getElem? (v : Nat) :
    ∀ i, i < (encBytes v).length → (encBytes v)[i]? = some (closedByte v (encBytes v).length i) := by
  induction v using encBytes_induction with
  | small v h =>
    intro i hi
    rw [encBytes_small h, List.length_singleton] at hi ⊢
    obtain rfl := Nat.lt_one_iff.1 hi
    rw [closedByte_last, Nat.mod_eq_of_lt h]
    rfl
  | step v h ih =>
    intro i hi
    rw [encBytes_length_step h] at hi ⊢
    rw [encBytes_step h]
    rcases Nat.lt_succ_iff_lt_or_eq.1 hi with hi | rfl
    · rw [List.getElem?_append_left (by rwa [List.length_map]), List.getElem?_map, ih i hi, Option.map_some,
        mark_closedByte hi]
    · rw [closedByte_last]
      simp

/-- The first byte of a value other than 0 carries the value's highest group, which is not zero (45_encoder.md R146). -/
theorem encBytes_eq_cons {v : Nat} : 0 < v → ∃ b rest, encBytes v = b :: rest ∧
    (wirePayload b).toNat = v >>> (7 * rest.length) ∧ wirePayload b ≠ 0#7 := by
  induction v using encBytes_induction with
  | small v h =>
    intro hv
    have hpayload : (wirePayload (BitVec.ofNat 8 v)).toNat = v := by
      rw [wirePayload_toNat, BitVec.toNat_ofNat]
      omega
    refine ⟨_, [], encBytes_small h, hpayload, fun hz => ?_⟩
    rw [hz] at hpayload
    exact hv.ne hpayload
  | step v h ih =>
    intro _
    obtain ⟨b, rest, hb, hpayload, hne⟩ := ih (by omega)
    refine ⟨b ||| 0x80#8, rest.map (· ||| 0x80#8) ++ [BitVec.ofNat 8 (v % 128)], ?_, ?_, ?_⟩
    · rw [encBytes_step h, hb, List.map_cons, List.cons_append]
    · rw [wirePayload_mark, hpayload, div_shiftRight, List.length_append, List.length_map, List.length_singleton]
    · rwa [wirePayload_mark]

/-! ### Decoded again -/

/-- Plain base-128 reads the payloads only. -/
theorem plainValue_map_mark (acc : Nat) (bs : List Byte) :
    plainValue acc (bs.map (· ||| 0x80#8)) = plainValue acc bs := by
  induction bs generalizing acc with
  | nil => rfl
  | cons b bs ih =>
    rw [List.map_cons, plainValue, plainValue, ih, ← wirePayload_toNat, wirePayload_mark, wirePayload_toNat]

/-- The encoder's bytes are the value in plain base-128 (45_encoder.md R149). -/
theorem plainValue_encBytes (v : Nat) : plainValue 0 (encBytes v) = v := by
  induction v using encBytes_induction with
  | small v h =>
    rw [encBytes_small h, plainValue, plainValue, BitVec.toNat_ofNat]
    omega
  | step v h ih =>
    rw [encBytes_step h, plainValue_append, plainValue_map_mark, ih, BitVec.toNat_ofNat]
    omega

/-- At the start of a DEC the loop ends with OK on the encoder's bytes, and takes no more than them (45_encoder.md
R149). -/
theorem State.loopEnd_encBytes {s : State} {v : Nat} {tail : List Byte} (hat : AtFirstByte s)
    (hv : s.width.fits v = true) (hs : s.src = encBytes v ++ tail) :
    ∃ d, s.loopEnd = some d ∧ d.status = 1#3 ∧ d.result = some v ∧ d.left = tail := by
  rcases Nat.eq_zero_or_pos v with rfl | hpos
  · exact ⟨_, State.loopEnd_of_zero hs hat.first (by decide), rfl, rfl, rfl⟩
  · have hg (c : Byte) (hc : (encBytes v).head? = some c) : s.TakesGroup c := by
      obtain ⟨b, rest, hb, -, hne⟩ := encBytes_eq_cons hpos
      rw [hb] at hc
      cases hc
      exact takesGroup_of_atFirstByte hat hne
    have hl := State.loopEnd_of_marked hs (marked_encBytes v) hg
    rw [hat.acc, plainValue_encBytes, decFinish, if_pos hv] at hl
    exact ⟨_, hl, rfl, rfl, rfl⟩

end Sys2Proof.Machine
end

section
/-! ENC at its port and the push steps that follow (45_encoder.md R140, R143, R148). -/

namespace Sys2Proof.Machine

open Sys2Proof.Claims

/-! ### Acceptance -/

/-- A sign bit with magnitude 0 is 0 (30_encoding.md R78). -/
theorem operandValue_of_nonneg {vsign : Bool} {vmag : Nat} (h : vsign = false ∨ vmag = 0) :
    operandValue vsign vmag = vmag := by
  rcases h with rfl | rfl
  · rfl
  · cases vsign <;> rfl

/-- ENC with v ≥ 0 at an idle block (45_encoder.md R140). -/
theorem exec_enc_of_nonneg {s : State} {vsign : Bool} {vmag : Nat} (hp : s.phase = .idle)
    (hf : s.width.fits vmag = true) (h : vsign = false ∨ vmag = 0) :
    exec (.enc vsign vmag) s = .next (s.acceptEnc vmag) := by
  simp [exec, execEnc, hp, hf, operandValue_of_nonneg h]

/-- ENC with v < 0 at an idle block raises INVALID_ARGUMENT (45_encoder.md R140, 60_exceptions.md R173). -/
theorem exec_enc_of_neg {s : State} {vmag : Nat} (hp : s.phase = .idle) (hf : s.width.fits vmag = true)
    (hv : 0 < vmag) : exec (.enc true vmag) s = .next (s.raise .invalidArgument) := by
  simp [exec, execEnc, hp, hf, operandValue, hv]

/-- ENC at a busy block stays at the port (70_reset_and_hazards.md R205). -/
theorem exec_enc_of_busy {s : State} (hp : s.phase ≠ .idle) (vsign : Bool) (vmag : Nat) :
    exec (.enc vsign vmag) s = .next (s.holdCommand ⟨0x01#8, vsign, vmag⟩) := by
  simp [exec, execEnc, hp]

/-- The step of an idle block that is offered an ENC which the port can carry. -/
theorem step_of_enc {s : State} {vsign : Bool} {vmag : Nat} {rest : List Command}
    (h : Offers s ⟨0x01#8, vsign, vmag⟩ rest) (hf : s.width.fits vmag = true) :
    step s = exec (.enc vsign vmag) { s with cmds := rest } := by
  rw [step_of_command h.resetIn h.phase h.cmds]
  exact runWord_of_decode (decode_enc hf ..)

/-! ### Pushes -/

/-- A push that leaves bytes in OBUF (45_encoder.md R143). -/
theorem step_of_pushMore {s : State} {b : Byte} {rest : List Byte} (hr : s.resetIn = false)
    (hp : s.phase = .encPush) (ho : s.obuf = b :: rest) (ha : s.sinkAccepts = true) (hne : rest ≠ []) :
    step s = .next { s.outPush b with obuf := rest } := by
  rw [step_of_push hr hp]
  simp [State.encPush, ho, ha, hne]

/-- The push of OBUF's last byte completes with OK (45_encoder.md R143). -/
theorem step_of_pushLast {s : State} {b : Byte} (hr : s.resetIn = false) (hp : s.phase = .encPush)
    (ho : s.obuf = [b]) (ha : s.sinkAccepts = true) :
    step s = .next (({ s.outPush b with obuf := [] } : State).complete .ok) := by
  rw [step_of_push hr hp]
  simp [State.encPush, ho, ha]

/-- The pushing block `s` after `j` of OBUF's bytes have gone to a sink that accepts every byte (45_encoder.md R148). -/
def State.pushed (j : Nat) (s : State) : State :=
  { s with
    snk := s.snk ++ s.obuf.take j, obuf := s.obuf.drop j,
    phase := if j < s.obuf.length then .encPush else .idle,
    status := if j < s.obuf.length then s.status else .ok }

/-- BUSY is 1 until the last push (45_encoder.md R148). -/
theorem State.busy_pushed (s : State) (j : Nat) : (s.pushed j).busy = true ↔ j < s.obuf.length := by
  by_cases hj : j < s.obuf.length <;> simp [State.pushed, hj]

/-- One more push (45_encoder.md R143). -/
theorem step_pushed {s : State} {j : Nat} (hr : s.resetIn = false) (hroom : s.snkRoom = .always)
    (hj : j < s.obuf.length) : step (s.pushed j) = .next (s.pushed (j + 1)) := by
  have hphase : (s.pushed j).phase = .encPush := if_pos hj
  have hobuf : (s.pushed j).obuf = s.obuf[j] :: s.obuf.drop (j + 1) := List.drop_eq_getElem_cons hj
  have haccepts : (s.pushed j).sinkAccepts = true := by simp [State.sinkAccepts, State.pushed, hroom]
  rcases (Nat.succ_le_of_lt hj).lt_or_eq with hmore | hlast
  · rw [step_of_pushMore (s := s.pushed j) hr hphase hobuf haccepts (by simpa using hmore)]
    simp [State.outPush, State.pushed, SinkRoom.less, hroom, hj, hmore]
  · have hdone : ¬ j + 1 < s.obuf.length := hlast.not_lt
    have hnil : s.obuf.drop (j + 1) = [] := List.drop_eq_nil_of_le hlast.ge
    rw [step_of_pushLast (s := s.pushed j) hr hphase (hnil ▸ hobuf) haccepts]
    simp [State.outPush, State.complete, State.pushed, SinkRoom.less, hroom, hj, hdone, hnil]

/-- The run of the pushes, up to the last one (45_encoder.md R148). -/
theorem run_pushed {s : State} (hr : s.resetIn = false) (hp : s.phase = .encPush) (hroom : s.snkRoom = .always)
    (hpos : 0 < s.obuf.length) : ∀ j, j ≤ s.obuf.length → Runs j s (s.pushed j) := by
  intro j
  induction j with
  | zero =>
    intro _
    have hstart : s.pushed 0 = s := by simp [State.pushed, hpos, ← hp]
    rw [hstart]
    exact run_zero s
  | succ j ih =>
    intro hj
    rw [Runs, run_add j 1 (ih (Nat.le_of_succ_le hj))]
    exact run_succ 0 (step_pushed hr hroom hj)

/-- ENC with v ≥ 0 from its acceptance on: `j` pushes later `j` bytes have gone (45_encoder.md R148). -/
theorem run_of_enc {s : State} {vsign : Bool} {vmag j : Nat} {rest : List Command}
    (h : Offers s ⟨0x01#8, vsign, vmag⟩ rest) (hf : s.width.fits vmag = true) (hv : vsign = false ∨ vmag = 0)
    (hroom : s.snkRoom = .always) (hj : j ≤ (encBytes vmag).length) :
    Runs (1 + j) s ((({ s with cmds := rest } : State).acceptEnc vmag).pushed j) := by
  have haccept : step s = .next (({ s with cmds := rest } : State).acceptEnc vmag) :=
    (step_of_enc h hf).trans (exec_enc_of_nonneg (s := { s with cmds := rest }) h.phase hf hv)
  rw [Runs, Nat.add_comm, run_succ j haccept]
  exact run_pushed (s := ({ s with cmds := rest } : State).acceptEnc vmag) h.resetIn rfl hroom
    (encBytes_length_pos vmag) j hj

end Sys2Proof.Machine
end

section
/-! The statements of 45_encoder.md. -/

namespace Sys2Proof.Proofs

open Sys2Proof.Machine Sys2Proof.Claims

/-- Settles O6, by the three answers of ENC. -/
theorem encAcceptanceFillsTheBuffer : Obligations.EncAcceptanceFillsTheBuffer := by
  refine ⟨fun s vsign vmag hp hf hv => ?_, fun s vmag hp hf hv => ?_, fun s t vsign vmag hp h => ?_⟩
  · exact ⟨_, exec_enc_of_nonneg hp hf hv, ⟨rfl, rfl, rfl, rfl, rfl, rfl⟩, ⟨rfl, rfl, rfl, rfl, rfl, rfl, rfl⟩⟩
  · exact ⟨_, exec_enc_of_neg hp hf hv, ⟨rfl, rfl, rfl, rfl, rfl, rfl⟩, ⟨rfl, rfl, rfl, rfl, rfl, rfl, rfl⟩⟩
  · cases (exec_enc_of_busy hp vsign vmag).symm.trans h
    exact ⟨rfl, rfl, rfl, rfl, rfl, rfl, rfl⟩

/-- Settles O24, by the push that leaves bytes in OBUF and the last one. -/
theorem encPushMovesTheHead : Obligations.EncPushMovesTheHead := by
  intro s b rest hr hp ho ha
  refine ⟨step_of_pushMore hr hp ho ha, ?_⟩
  rintro rfl
  exact step_of_pushLast hr hp ho ha

/-- Settles O19: a value is what its bytes decode to, so [0x00] is for 0 alone. -/
theorem zeroEncodesAsOneByte : Obligations.ZeroEncodesAsOneByte := by
  refine ⟨encBytes_small (by decide), fun v h => ?_⟩
  calc v = plainValue 0 (encBytes v) := (plainValue_encBytes v).symm
    _ = plainValue 0 [0x00#8] := by rw [h]
    _ = 0 := rfl

/-- Settles O20: the least `n` with seven value bits per byte is the number of bytes, and each byte has its closed
form. -/
theorem encBytesClosedForm : Obligations.EncBytesClosedForm := by
  intro v n hn hv hleast
  have hle (m : Nat) (hm : 1 ≤ m) : (encBytes v).length ≤ m ↔ v < 2 ^ (7 * m) := by
    obtain ⟨k, rfl⟩ := Nat.exists_eq_add_of_le' hm
    exact encBytes_length_le_iff k v
  have hpos := encBytes_length_pos v
  obtain rfl : n = (encBytes v).length :=
    Nat.le_antisymm (hleast _ hpos ((hle _ hpos).1 le_rfl)) ((hle n hn).2 hv)
  exact ⟨encBytes_length v, rfl, encBytes_getElem? v⟩

/-- Settles O21, by the marking and the low group. -/
theorem encBytesAreMarked : Obligations.EncBytesAreMarked :=
  fun v => ⟨marked_encBytes v, encBytes_getLast? v⟩

/-- Settles O22, by induction over the value's groups: the first byte's payload is the highest one. -/
theorem encBytesAreMinimal : Obligations.EncBytesAreMinimal :=
  fun _ => encBytes_eq_cons

/-- Settles O38: the acceptance, and then the state after each push. -/
theorem encRunPushesTheEncoding : Obligations.EncRunPushesTheEncoding := by
  refine ⟨fun s vsign vmag rest ho hf hv hroom j hj => ?_, fun s vmag rest ho hf hv => ?_⟩
  · exact ⟨_, run_of_enc ho hf hv hroom hj, rfl, rfl, State.busy_pushed _ j, rfl, rfl, rfl, rfl, rfl, rfl⟩
  · have hraise : step s = .next (({ s with cmds := rest } : State).raise .invalidArgument) :=
      (step_of_enc ho hf).trans (exec_enc_of_neg ho.phase hf hv)
    have hrun : Runs 1 s _ := run_succ 0 hraise
    exact ⟨_, hrun, ⟨rfl, rfl, rfl, rfl, rfl, rfl⟩, rfl, rfl, rfl⟩

/-- Settles O40: the loop of DEC ends with OK and the value on the encoder's bytes, and DEC follows the loop. -/
theorem decodingAnEncodingGivesTheValue : Obligations.DecodingAnEncodingGivesTheValue := by
  intro s vsign vmag rest v tail ho hv hs
  have hat : AtFirstByte ({ s with cmds := rest } : State).acceptDec :=
    ⟨ho.resetIn, rfl, rfl, rfl, rfl, ho.obuf, rfl⟩
  obtain ⟨d, hl, hstatus, hresult, rfl⟩ := State.loopEnd_encBytes hat hv hs
  obtain ⟨-, t, hrun, hshows, hresult', hsrc, hcmds, -⟩ := (decRunFollowsTheLoop s vsign vmag rest ho).1 d hl
  have hpulls : s.src.length - d.left.length = (encBytes v).length := by
    rw [hs, List.length_append, Nat.add_sub_cancel]
  simp only [hpulls, hstatus, hresult] at hrun hshows hresult'
  exact ⟨t, hrun, hshows.phase, hshows.status, hshows.resultValid, hresult', hsrc, hcmds⟩

end Sys2Proof.Proofs
end

section
/-! Exceptions by their causes (60_exceptions.md R171 to R175): what a step can do to STATUS, and the cause of each
exception that it raises. -/

namespace Sys2Proof.Machine

/-- END at a pulling block raises UNEXPECTED_END_OF_INPUT (60_exceptions.md R172). -/
theorem exec_decEnd {s : State} (hp : s.phase = .decPull) : exec .decEnd s = .next (s.raise .unexpectedEnd) :=
  if_pos hp

/-- The four exceptions have different codes (60_exceptions.md R171). -/
theorem Exc.code_injective : Function.Injective Exc.code := by
  intro e e'
  cases e <;> cases e' <;> decide

/-- The cause of an exception, seen in the state `s` before the step and the state `t` after it
(60_exceptions.md R171). -/
def State.HasCause (s t : State) : Exc → Prop
  | .unexpectedEnd => s.phase = .decPull ∧ s.src = [] ∧ s.srcEnd = true
  | .invalidArgument => s.phase = .idle ∧ ∃ vmag rest, s.cmds = ⟨0x01#8, true, vmag⟩ :: rest ∧ 0 < vmag
  | .overflow => s.phase = .decPull ∧ (∃ b, s.src = b :: t.src ∧ wireMore b = false) ∧
      ∃ w, s.width = .finite w ∧ 2 ^ w ≤ t.acc
  | .illegalCommand => s.phase = .idle ∧ ∃ c rest, s.cmds = c :: rest ∧ c.word ≠ 0x01#8 ∧ c.word ≠ 0x02#8

/-- What a step can do to STATUS: keep it, write NONE or OK, or raise an exception that has its cause. -/
inductive StatusNext (s : State) : State → Prop where
  | kept {t : State} (h : t.status = s.status) : StatusNext s t
  | quiet {t : State} (h : t.status = .none ∨ t.status = .ok) : StatusNext s t
  | raised (u : State) (e : Exc) (hcause : s.HasCause (u.raise e) e) (hsnk : u.snk = s.snk) :
      StatusNext s (u.raise e)

/-- Only a finite width leaves a value out (00_scope.md R6). -/
theorem Width.finite_of_not_fits {w : Width} {v : Nat} (h : w.fits v = false) : ∃ n, w = .finite n ∧ 2 ^ n ≤ v := by
  cases w with
  | inf => cases h
  | finite n => exact ⟨n, rfl, Nat.le_of_not_lt (of_decide_eq_false h)⟩

/-- A command's exceptions: a negative operand of ENC, or a reserved word (60_exceptions.md R173, R175). -/
theorem CommandNext.statusNext {s t : State} {c : Command} {rest : List Command} (hp : s.phase = .idle)
    (hc : s.cmds = c :: rest) (h : CommandNext { s with cmds := rest } c t) : StatusNext s t := by
  cases h with
  | dec | enc => exact .quiet (.inl rfl)
  | negative hw hs hv =>
    obtain ⟨word, vsign, vmag⟩ := c
    cases hw
    cases hs
    exact .raised _ _ ⟨hp, vmag, rest, hc, hv⟩ rfl
  | reserved h1 h2 => exact .raised _ _ ⟨hp, c, rest, hc, h1, h2⟩ rfl

/-- A pulled byte's one exception: a value that ends with 2^W or more (60_exceptions.md R174). -/
theorem ByteNext.statusNext {s t : State} {b : Byte} {rest : List Byte} (hp : s.phase = .decPull)
    (hs : s.src = b :: rest) (h : ByteNext { s with src := rest } b t) : StatusNext s t := by
  cases h with
  | zero => exact .quiet (.inr rfl)
  | more => exact .kept rfl
  | last k _ hb =>
    rcases (({ s with src := rest } : State).takeGroup b k).terminate_cases with ⟨-, ht⟩ | ⟨hf, ht⟩ <;> rw [ht]
    · exact .quiet (.inr rfl)
    · exact .raised _ _ ⟨hp, ⟨b, hs, hb⟩, Width.finite_of_not_fits hf⟩ rfl

theorem StepNext.statusNext {s t : State} (h : StepNext s t) : StatusNext s t := by
  cases h with
  | hold | pushMore => exact .kept rfl
  | reset => exact .quiet (.inl rfl)
  | pushLast => exact .quiet (.inr rfl)
  | command c rest t _ hp hc hn => exact hn.statusNext hp hc
  | byte b rest t _ hp hs hn => exact hn.statusNext hp hs
  | endOfInput _ hp hs he => exact .raised s _ ⟨hp, hs, he⟩ rfl

end Sys2Proof.Machine
end

section
/-! The holds, the two waits among them (60_exceptions.md R181): where the state survives a step unchanged, and that it
does so nowhere else. -/

namespace Sys2Proof.Machine

/-- No step of 10_state.md R34 is enabled: an idle block without a command, a pulling block without an answer, or a
pushing block that has nothing to push or whose sink does not accept. -/
def State.Holds (s : State) : Prop :=
  s.resetIn = false ∧ ((s.phase = .idle ∧ s.cmds = []) ∨ (s.phase = .decPull ∧ s.src = [] ∧ s.srcEnd = false) ∨
    (s.phase = .encPush ∧ (s.obuf = [] ∨ s.sinkAccepts = false)))

/-- A step that is enabled changes the state: it takes the reset input, a command or a byte, moves a byte out of OBUF,
or ends the operation. -/
theorem StepNext.holds {s t : State} (h : StepNext s t) (ht : t = s) : s.Holds := by
  cases h with
  | hold hr hw => exact ⟨hr, hw⟩
  | reset hr => exact absurd (congrArg State.resetIn ht) (by simp [hr])
  | command c rest t _ _ hc hn => exact absurd (congrArg State.cmds ht) (by simp [hn.samePorts.cmds, hc])
  | byte b rest t _ _ hs hn => exact absurd (congrArg State.src ht) (by simp [hn.samePorts.src, hs])
  | endOfInput _ hp => exact absurd (congrArg State.phase ht) (by simp [hp])
  | pushLast b _ _ ho | pushMore b _ _ _ _ ho => exact absurd (congrArg State.obuf ht) (by simp [ho])

/-- The state survives a step unchanged exactly where no step is enabled (10_state.md R34). -/
theorem step_eq_self_iff (s : State) : step s = .next s ↔ s.Holds := by
  refine ⟨fun h => (step_next h).holds rfl, ?_⟩
  rintro ⟨hr, ⟨hp, hc⟩ | ⟨hp, hs, he⟩ | ⟨hp, hpush⟩⟩
  · simp [step, hr, hp, State.fetch, hc]
  · simp [step, hr, hp, State.fetch, State.sourceAnswer, hs, he]
  · rw [step_of_push hr hp]
    rcases s.encPush_cases with ⟨h, -⟩ | ⟨b, ho, ha, -⟩ | ⟨b, c, rest, ho, ha, -⟩
    · rw [h]
    · simp [ho, ha] at hpush
    · simp [ho, ha] at hpush

/-- A busy block that does not hold goes on to another state. -/
theorem step_ne_of_busy {s : State} (hp : s.phase ≠ .idle) (hn : ¬ s.Holds) : ∃ t, step s = .next t ∧ t ≠ s := by
  rcases step_total s with ⟨t, ht, hnext⟩ | ⟨-, -, hidle, -⟩
  · exact ⟨t, ht, fun heq => hn (hnext.holds heq)⟩
  · exact absurd hidle hp

end Sys2Proof.Machine
end

section
/-! A DEC whose source ends before the value does (60_exceptions.md R172, R176). -/

namespace Sys2Proof.Machine

open Sys2Proof.Claims

/-- The run over bytes that all have C = 1 still pulls, with plain base-128 in ACC (40_decoder.md R112, R114). -/
theorem run_of_all_more {rest : List Byte} : ∀ {p : List Byte} {b : Byte} {s : State}, s.resetIn = false →
    s.phase = .decPull → s.src = b :: p ++ rest → (b :: p).all wireMore = true → s.TakesGroup b →
    Runs (b :: p).length s (s.pulled (b :: p) rest) := by
  intro p
  induction p with
  | nil =>
    intro b s hr hp hs hm hg
    have hstep := step_of_group hr hp hs hg
    rw [if_pos (by simpa using hm)] at hstep
    exact run_succ 0 hstep
  | cons c p ih =>
    intro b s hr hp hs hm hg
    obtain ⟨hb, hm⟩ : wireMore b = true ∧ (c :: p).all wireMore = true := by simpa using hm
    have hstep := step_of_group hr hp hs hg
    rw [if_pos hb] at hstep
    exact (run_succ _ hstep).trans (ih hr hp rfl hm (s.takesGroup_pulled _ _ c))

/-- Bytes that all have C = 1, and then END, raise UNEXPECTED_END_OF_INPUT with plain base-128 in ACC, whatever W
(60_exceptions.md R176 item 3). -/
theorem run_of_truncated {s : State} {b : Byte} {p : List Byte} (hr : s.resetIn = false) (hp : s.phase = .decPull)
    (hs : s.src = b :: p) (hm : (b :: p).all wireMore = true) (hg : s.TakesGroup b) (he : s.srcEnd = true) :
    Runs ((b :: p).length + 1) s ((s.pulled (b :: p) []).raise .unexpectedEnd) := by
  have hpulled := run_of_all_more (rest := []) hr hp (by rw [hs, List.append_nil]) hm hg
  have hend : step (s.pulled (b :: p) []) = .next ((s.pulled (b :: p) []).raise .unexpectedEnd) :=
    step_eq_raise hp hr rfl he
  exact (run_add _ 1 hpulled).trans (run_succ 0 hend)

end Sys2Proof.Machine
end

section
/-! A step of one block on its platform (60_exceptions.md R182). -/

namespace Sys2Proof.Machine

theorem Platform.stepAt_of_none {p : Platform} {i : Nat} (h : p[i]? = none) : p.stepAt i = .next p := by
  simp [Platform.stepAt, h]

theorem Platform.stepAt_of_next {p : Platform} {i : Nat} {s t : State} (hi : p[i]? = some s) (h : step s = .next t) :
    p.stepAt i = .next (p.set i t) := by
  simp [Platform.stepAt, hi, h]

/-- A platform's step that goes on is a step of the one block, or of none where no block stands at that place. -/
theorem Platform.stepAt_next {p q : Platform} {i : Nat} (h : p.stepAt i = .next q) :
    (p[i]? = none ∧ q = p) ∨ ∃ s t, p[i]? = some s ∧ step s = .next t ∧ q = p.set i t := by
  unfold Platform.stepAt at h
  split at h
  case h_1 hi =>
    cases h
    exact .inl ⟨hi, rfl⟩
  case h_2 s hi =>
    split at h
    case h_1 t ht =>
      cases h
      exact .inr ⟨s, t, hi, ht, rfl⟩
    case h_2 => cases h
    case h_3 => cases h

end Sys2Proof.Machine
end

section
/-! The statements of 60_exceptions.md. -/

namespace Sys2Proof.Proofs

open Sys2Proof.Machine

/-- Settles O26: the state survives a step exactly where no step is enabled, and a reset ends any operation. -/
theorem waitsKeepAllState : Obligations.WaitsKeepAllState := by
  refine ⟨fun s hr hp hs he => ?_, fun s hr hp ha => ?_, fun s hp hanswer => ?_, fun s hp ho ha => ?_,
    fun s _ hr => ?_⟩
  · exact (step_eq_self_iff s).2 ⟨hr, .inr (.inl ⟨hp, hs, he⟩)⟩
  · exact (step_eq_self_iff s).2 ⟨hr, .inr (.inr ⟨hp, .inr ha⟩)⟩
  · refine step_ne_of_busy (by simp [hp]) fun ⟨_, hw⟩ => ?_
    obtain ⟨hs, he⟩ : s.src = [] ∧ s.srcEnd = false := by simpa [hp] using hw
    simp [hs, he] at hanswer
  · refine step_ne_of_busy (by simp [hp]) fun ⟨_, hw⟩ => ?_
    simp [hp, ho, ha] at hw
  · exact ⟨_, step_of_reset hr, s.resetBlock.busy_eq_false.2 rfl⟩

/-- Settles O29: a step that gives STATUS a new value writes NONE or OK, or raises an exception that has its cause. -/
theorem eachExceptionHasItsCause : Obligations.EachExceptionHasItsCause := by
  intro s t _ h hne
  cases (step_next h).statusNext with
  | kept hkept => exact absurd hkept hne
  | quiet hquiet => rcases hquiet with hq | hq <;> simp [hq, StatusCode.none, StatusCode.ok]
  | raised u e hcause hsnk =>
    have cause (e' : Exc) (he : e.code = e'.code) : s.HasCause (u.raise e) e' := Exc.code_injective he ▸ hcause
    exact ⟨cause .unexpectedEnd, cause .invalidArgument, cause .overflow, cause .illegalCommand, e.code_le,
      fun _ => ⟨rfl, rfl, rfl, hsnk⟩⟩

/-- Settles O47: OVERFLOW is tested only at a terminating byte, and the run over a truncated value has none. -/
theorem endWinsOverOverflow : Obligations.EndWinsOverOverflow := by
  intro s b p w hat hs hb hm he _ _
  refine ⟨_, run_of_truncated hat.resetIn hat.phase hs hm (takesGroup_of_atFirstByte hat hb) he, rfl, rfl, ?_⟩
  rw [State.raise_acc, State.pulled_acc, hat.acc]

/-- Settles O53: a platform's step replaces the one block by its next state. -/
theorem instancesShareNoState : Obligations.InstancesShareNoState := by
  refine ⟨fun p q i j h hij => ?_, fun p p' q i hpp h => ?_⟩
  · rcases Platform.stepAt_next h with ⟨-, rfl⟩ | ⟨s, t, -, -, rfl⟩
    · rfl
    · exact List.getElem?_set_ne hij
  · rcases Platform.stepAt_next h with ⟨hi, rfl⟩ | ⟨s, t, hi, ht, rfl⟩
    · exact ⟨p', Platform.stepAt_of_none (hpp ▸ hi), hpp.symm⟩
    · refine ⟨_, Platform.stepAt_of_next (hpp ▸ hi) ht, ?_⟩
      rw [List.getElem?_set_self', List.getElem?_set_self', hpp]

/-- Settles O14, by what raising an exception leaves. -/
theorem endRaisesUnexpectedEnd : Obligations.EndRaisesUnexpectedEnd := by
  intro s hp
  exact ⟨_, exec_decEnd hp, ⟨rfl, rfl, rfl, rfl, rfl, rfl⟩, ⟨rfl, rfl, rfl, rfl, rfl, rfl, rfl⟩⟩

end Sys2Proof.Proofs
end

section
/-! Reset and what follows it (70_reset_and_hazards.md R200 to R202), and the commands that a busy block leaves at their
port (R205). -/

namespace Sys2Proof.Machine

/-- Without a command a block that has been reset stays as the reset left it (70_reset_and_hazards.md R201). -/
theorem run_of_reset {s : State} (hr : s.resetIn = true) (hc : s.cmds = []) (n : Nat) :
    core.run (n + 1) s = .next s.resetBlock :=
  (run_succ n (step_of_reset hr)).trans (run_of_idle (s := s.resetBlock) rfl rfl hc n)

/-- An idle block takes an offered command that the port can carry (30_encoding.md R78). -/
theorem step_takes_command {s : State} {c : Command} {rest : List Command} (hr : s.resetIn = false)
    (hp : s.phase = .idle) (hc : s.cmds = c :: rest) (hw : c.wf s.width = true) :
    ∃ t, step s = .next t ∧ t.cmds = rest := by
  rw [step_of_command hr hp hc]
  rcases runCommand c { s with cmds := rest } hp with ⟨t, ht, hn⟩ | ⟨-, hword, hf⟩
  · exact ⟨t, ht, hn.samePorts.cmds⟩
  · rw [Command.wf, if_pos hword] at hw
    cases hw.symm.trans hf

/-- Of all the ways a step can go on, only an idle block's acceptance moves the command port. -/
theorem StepNext.cmds_of_busy {s t : State} (h : StepNext s t) (hb : s.phase ≠ .idle) : t.cmds = s.cmds := by
  cases h with
  | hold | reset | endOfInput | pushLast | pushMore => rfl
  | command _ _ _ _ hp => exact absurd hp hb
  | byte _ _ _ _ _ _ hn => exact hn.samePorts.cmds

end Sys2Proof.Machine
end

section
/-! The registers that an operation reads at its start (70_reset_and_hazards.md R204): none but PHASE. -/

namespace Sys2Proof.Machine

/-- The registers of `s'` at the ports of `s`: all there is to a state at the same ports. -/
theorem State.SamePorts.eq_update {s s' : State} (h : s.SamePorts s') :
    s' = { s with
      phase := s'.phase, acc := s'.acc, first := s'.first, obuf := s'.obuf, status := s'.status,
      result := s'.result, resultValid := s'.resultValid } := by
  obtain ⟨hw, hr, hc, hs, he, hk, hm⟩ := h
  rw [← hw, ← hr, ← hc, ← hs, ← he, ← hk, ← hm]

/-- The acceptance of DEC writes every register but OBUF (40_decoder.md R106). -/
theorem State.SamePorts.acceptDec_eq {s s' : State} (h : s.SamePorts s') (ho : s.obuf = s'.obuf) :
    s.acceptDec = s'.acceptDec := by
  rw [h.eq_update, ← ho]
  rfl

/-- The acceptance of ENC writes every register but ACC and FIRST (45_encoder.md R140, R147). -/
theorem State.SamePorts.acceptEnc_eq {s s' : State} (h : s.SamePorts s') (v : Nat) :
    s'.acceptEnc v = { s.acceptEnc v with acc := s'.acc, first := s'.first } := by
  rw [h.eq_update]
  rfl

/-- Taking an exception writes every register but ACC and FIRST (60_exceptions.md R177). -/
theorem State.SamePorts.raise_eq {s s' : State} (h : s.SamePorts s') (e : Exc) :
    s'.raise e = { s.raise e with acc := s'.acc, first := s'.first } := by
  rw [h.eq_update]
  rfl

/-- An ENC that goes on at an idle block has an operand that fits, and is accepted or raises INVALID_ARGUMENT by the
operand's sign (45_encoder.md R140). -/
theorem exec_enc_next {s t : State} {vsign : Bool} {vmag : Nat} (hp : s.phase = .idle)
    (h : exec (.enc vsign vmag) s = .next t) :
    s.width.fits vmag = true ∧
    (((vsign = false ∨ vmag = 0) ∧ t = s.acceptEnc vmag) ∨
      (vsign = true ∧ 0 < vmag ∧ t = s.raise .invalidArgument)) := by
  cases hf : s.width.fits vmag with
  | false => simp [exec, execEnc, hp, hf] at h
  | true =>
    refine ⟨rfl, ?_⟩
    by_cases hv : vsign = false ∨ vmag = 0
    · cases (exec_enc_of_nonneg hp hf hv).symm.trans h
      exact .inl ⟨hv, rfl⟩
    · obtain ⟨hsign, hmag⟩ := not_or.1 hv
      obtain rfl := Bool.eq_true_of_not_eq_false hsign
      cases (exec_enc_of_neg hp hf (Nat.pos_of_ne_zero hmag)).symm.trans h
      exact .inr ⟨rfl, Nat.pos_of_ne_zero hmag, rfl⟩

end Sys2Proof.Machine
end

section
/-! A DEC whose first byte has a zero payload (40_decoder.md R108, R116), as a whole run. -/

namespace Sys2Proof.Machine

open Sys2Proof.Claims

/-- The acceptance and the one byte leave an idle block that offers the next command, with the bytes that follow. -/
theorem run_of_dec_zero {s : State} {c : Command} {vsign : Bool} {vmag : Nat} {rest : List Command} {b : Byte}
    {more : List Byte} (ho : Offers s ⟨0x02#8, vsign, vmag⟩ (c :: rest)) (hs : s.src = b :: more)
    (hb : wirePayload b = 0#7) : ∃ t, Runs 2 s t ∧ Offers t c rest ∧ t.width = s.width ∧ t.src = more := by
  have hbyte := step_eq_decByte (s := ({ s with cmds := c :: rest } : State).acceptDec) rfl ho.resetIn hs
  rw [State.decByte_of_zero rfl hb] at hbyte
  exact ⟨_, (run_succ 1 (step_of_dec ho)).trans (run_succ 0 hbyte), ⟨ho.resetIn, rfl, ho.obuf, rfl⟩, rfl, rfl⟩

end Sys2Proof.Machine
end

section
/-! The statements of 70_reset_and_hazards.md. -/

namespace Sys2Proof.Proofs

open Sys2Proof.Machine Sys2Proof.Claims

/-- Settles O3: after the reset step the block holds, in the state that the reset left. -/
theorem resetAbortsAndKeepsTheStreams : Obligations.ResetAbortsAndKeepsTheStreams :=
  fun s n hr hc => ⟨s.resetBlock, run_of_reset hr hc n, rfl, rfl, rfl, rfl, rfl, rfl⟩

/-- Settles O4: the reset step leaves an idle block, the command still offered and the reset input taken back. -/
theorem afterResetACommandIsAccepted : Obligations.AfterResetACommandIsAccepted := by
  intro s c rest hr hc hw
  obtain ⟨u, hu, hcmds⟩ := step_takes_command (s := s.resetBlock) rfl rfl hc hw
  exact ⟨s.resetBlock, u, step_of_reset hr, rfl, hu, hcmds⟩

/-- Settles O10, by the ways a step can go on. -/
theorem busyBlockTakesNoCommand : Obligations.BusyBlockTakesNoCommand :=
  fun s _ hb h => (step_next h).cmds_of_busy (s.busy_eq_true.1 hb)

/-- Settles O46: the first DEC ends at the zero byte in an idle block that offers the second, and that one decodes
an encoding. -/
theorem laterDecStartsAfterTheZeroByte : Obligations.LaterDecStartsAfterTheZeroByte := by
  rintro s ⟨word, vsign, vmag⟩ rest v tail ho rfl hv hs
  obtain ⟨u, hfirst, hoffers, hwidth, hleft⟩ :=
    run_of_dec_zero (b := 0x80#8) (more := encBytes v ++ tail) ho hs (by decide)
  obtain ⟨t, hsecond, hphase, hstatus, -, hresult, hsrc, -⟩ :=
    decodingAnEncodingGivesTheValue u vsign vmag rest v tail hoffers (by rwa [hwidth]) hleft
  refine ⟨t, ?_, hphase, hstatus, hresult, hsrc⟩
  calc core.run (3 + (encBytes v).length) s
      = core.run (2 + (1 + (encBytes v).length)) s := by rw [← Nat.add_assoc]
    _ = core.run (1 + (encBytes v).length) u := run_add 2 _ hfirst
    _ = .next t := hsecond

/-- Settles O48: at the same ports an acceptance, or the exception in its place, writes the same registers. -/
theorem operationsDoNotDependOnThePast : Obligations.OperationsDoNotDependOnThePast := by
  intro s s' hp hp' ho ho' hports
  refine ⟨?_, fun vsign vmag t h => ?_⟩
  · rw [exec_dec_of_idle hp, exec_dec_of_idle hp', hports.acceptDec_eq (ho.trans ho'.symm)]
  · obtain ⟨hf, ⟨hv, rfl⟩ | ⟨rfl, hv, rfl⟩⟩ := exec_enc_next hp h <;> rw [← hports.width] at hf
    · exact ⟨_, exec_enc_of_nonneg hp' hf hv, hports.acceptEnc_eq vmag⟩
    · exact ⟨_, exec_enc_of_neg hp' hf hv, hports.raise_eq _⟩

/-- Settles O50: the invariant gives a valid RESULT its value, and a busy block neither RESULT nor STATUS. -/
theorem resultReadsOnlyWhenValid : Obligations.ResultReadsOnlyWhenValid := by
  intro s hi
  refine ⟨fun hb hv => ?_, fun h => hostRead_result_of_not_valid ?_, fun hb => ?_⟩
  · obtain ⟨v, hr⟩ := Option.isSome_iff_exists.1 (hi.result_valid.symm.trans hv)
    exact ⟨v, by simp [hostRead, hb, hv, hr], hr, hi.result_fits v hr⟩
  · exact h.elim (fun hb => (hi.busy_quiet hb).2) id
  · simp [hostRead, (hi.busy_quiet hb).1]

/-- Settles O2, by what the reset of the block writes and leaves. -/
theorem resetStepSetsEveryElement : Obligations.ResetStepSetsEveryElement := by
  intro s hr
  exact ⟨s.resetBlock, step_of_reset hr, ⟨rfl, rfl, rfl, rfl, rfl, rfl⟩, rfl, ⟨rfl, rfl, rfl, rfl, rfl, rfl, rfl⟩,
    rfl, rfl, rfl, rfl, rfl, rfl⟩

/-- Settles O52, by the phase in which each of the two streams is in use. -/
theorem streamsAreNotSharedDuringOperations : Obligations.StreamsAreNotSharedDuringOperations :=
  fun _ _ _ => ⟨fun h => if_pos h, fun h => if_pos h, fun h => if_neg h, fun h => if_neg h⟩

end Sys2Proof.Proofs
end
